-- ==== Sys2Proof/Word.lean ====
section
/-! DEFINITION. The words of the block: the command, tag and response words, and the pattern of a
group of lines. -/

namespace Sys2Proof

/-- A command word, `op[11:8] a[7:4] b[3:0]` (spec/30_encoding.md R58). -/
abbrev CommandWord := BitVec 12

/-- A setting tag, the 4-bit code of a setting on the block's interfaces (00_scope.md R8). -/
abbrev Tag := BitVec 4

/-- A response word, `status[5:4] val[3:0]` (30_encoding.md R60). -/
abbrev ResponseWord := BitVec 6

/-- A vector of bits over a group of lines, element 0 first, elements in ascending line identifier
(00_scope.md R5). -/
abbrev Pattern := List Bool

end Sys2Proof
end

