-- ==== Sys2Proof/Config.lean ====
section
/-! DEFINITION. What an implementation fixes and the spec leaves OPEN (spec/00_scope.md R4), and the
free values. Every `opaque` here has no body: no proof can see its value. -/

namespace Sys2Proof

/-- The ten lines of `ALL_LINES` (10_state.md R14). The seven setting lines carry their identifiers
in their names; the identifiers of the other three are open (20_memory.md R31). -/
inductive Line where
  | line2
  | line3
  | line4
  | line5
  | line6
  | line7
  | line9
  | ctrlHigh
  | ctrlLow
  | spare
  deriving DecidableEq, Repr

/-- The open parameters and the premise `connected` that decide what the environment may do
(00_scope.md R4; 92_eei_decisions.md D15, D16, D29). -/
structure Params where
  /-- `DRIVER_MAY_FAIL`: whether a line-driver primitive may fail. -/
  driverMayFail : Bool
  /-- `EXTERNAL_DISTURBANCE`: whether an agent other than the codec may change a level. -/
  externalDisturbance : Bool
  /-- Whether step 1 of the bring-up, the connection to the line driver, succeeded (D29). -/
  connected : Bool
  deriving DecidableEq, Repr, Inhabited

/-- What the environment does at one primitive call: the levels it sets just before the call
(20_memory.md R36), and whether it makes the call fail (60_exceptions.md R102). -/
structure CallEnv where
  disturb : List (Line × Bool)
  fails : Bool
  deriving DecidableEq, Repr, Inhabited

/-- Neither a disturbance nor a failure. -/
def CallEnv.quiet : CallEnv := ⟨[], false⟩

/-- The three open identifiers with the constraint of 00_scope.md R4: distinct, and none of them a
setting line's. The default values only show that the type has a member. -/
structure OpenPins where
  ctrlHigh : Nat := 100
  ctrlLow : Nat := 101
  spare : Nat := 102
  distinct : ctrlHigh ≠ ctrlLow ∧ ctrlHigh ≠ spare ∧ ctrlLow ≠ spare := by decide
  outside : ∀ p ∈ [ctrlHigh, ctrlLow, spare], p ∉ [2, 3, 4, 5, 6, 7, 9] := by decide
  deriving Inhabited

/-- `PIN_CTRL_HIGH`, `PIN_CTRL_LOW`, `PIN_SPARE` (00_scope.md R4, D7, D8). -/
opaque Config.openPins : OpenPins

/-- `IDN_VENDOR` (00_scope.md R4, D23). -/
opaque Config.idnVendor : String

/-- `IDN_MODEL` (00_scope.md R4, D23). -/
opaque Config.idnModel : String

/-- `IDN_FIRMWARE` (00_scope.md R4, D23). -/
opaque Config.idnFirmware : String

/-- The parameters at reset: OPEN (00_scope.md R4). -/
opaque Config.params : Params

/-- What the environment will do at the calls made after reset: its own choice (60_exceptions.md
R102, 20_memory.md R36). -/
opaque Config.environment : List CallEnv

/-- The free level: what a read of a never-written line answers and what a failed write leaves on a
line, at each use anew (10_state.md R23; 20_memory.md R34). -/
opaque Config.freeLevel : Nat → Bool

/-- The free choice of an order (40_apply.md R70; 42_control.md R90, R92). -/
opaque Config.freePick : Nat → Nat

/-- Whether a `LineSetMode` that failed configured the line all the same: the spec does not say. -/
opaque Config.freeConfigured : Nat → Bool

end Sys2Proof
end

