-- ==== Sys2Proof/Syntax.lean ====
section
/-! DEFINITION. The settings, the operands and the seven commands (spec/30_encoding.md R50, R52,
R59). -/

namespace Sys2Proof

/-- The gain settings, in the row order of the gain table (30_encoding.md R50). -/
inductive GainSetting where
  | g1e9
  | g1e8
  | g1e7
  | g1e6
  | g1e5
  deriving DecidableEq, Repr

/-- The low-pass cutoff settings, in Hz, in the row order of the cutoff table (30_encoding.md R52). -/
inductive FilterSetting where
  | f1e6
  | f1e5
  | f3e4
  | f1e4
  | f3e3
  | f1e3
  | f300
  | f100
  | f30
  deriving DecidableEq, Repr

/-- Every gain setting once, in table order (R50). -/
def GainSetting.all : List GainSetting := [.g1e9, .g1e8, .g1e7, .g1e6, .g1e5]

/-- Every cutoff setting once, in table order (R52). -/
def FilterSetting.all : List FilterSetting :=
  [.f1e6, .f1e5, .f3e4, .f1e4, .f3e3, .f1e3, .f300, .f100, .f30]

/-- The gain operand of a command: a setting of the enumeration, or a tag that names none
(30_encoding.md R61; 92_eei_decisions.md D2). -/
inductive GainOperand where
  | setting (g : GainSetting)
  | unrecognized (tag : Tag)
  deriving DecidableEq, Repr

/-- The filter operand of a command (30_encoding.md R61). -/
inductive FilterOperand where
  | setting (f : FilterSetting)
  | unrecognized (tag : Tag)
  deriving DecidableEq, Repr

/-- The instruction set: the seven commands of spec/opcode_table.json (30_encoding.md R59). -/
inductive Instr where
  | applyGain (t : GainOperand)
  | applyFilter (t : FilterOperand)
  | readGain
  | readFilter
  | disableAll
  | init (tg : GainOperand) (tf : FilterOperand)
  | idn
  deriving DecidableEq, Repr

end Sys2Proof
end

