-- ==== Sys2Proof/Machine/State.lean ====
section
/-! DEFINITION. The state of the machine as plain data, the reasons a command can be refused, and the
state after reset (spec/10_state.md; 70_reset_and_hazards.md R120). -/

namespace Sys2Proof.Machine

/-- `phase`, the codec's only mutable state (10_state.md R11). -/
inductive Phase where
  | uninit
  | ready
  | disabled
  deriving DecidableEq, Repr

/-- `M[p]`, the mode of a line (10_state.md R15, D28). -/
inductive Mode where
  | unconfigured
  | output
  deriving DecidableEq, Repr

/-- `L[p]`, the level of a line: a bit, or no known value because neither the codec has written the line
nor the environment set it since reset (10_state.md R16, R23; log 27). -/
inductive Level where
  | unspecified
  | holds (b : Bool)
  deriving DecidableEq, Repr

/-- One value for each of the ten lines (10_state.md R14). -/
structure PerLine (α : Type) where
  line2 : α
  line3 : α
  line4 : α
  line5 : α
  line6 : α
  line7 : α
  line9 : α
  ctrlHigh : α
  ctrlLow : α
  spare : α
  deriving DecidableEq, Repr

/-- The status of a response (30_encoding.md R60, 60_exceptions.md R103). -/
inductive Status where
  | ok
  | warnUnrecognized
  | driverFailure
  deriving DecidableEq, Repr

/-- The identification record (42_control.md R94). -/
structure IdnRecord where
  vendor : String
  model : String
  serial : Option String
  firmware : String
  deriving DecidableEq, Repr

/-- A response: status, decoded tag, and the record that only `IDN` returns (30_encoding.md R60). -/
structure Response where
  status : Status
  val : Tag
  record : Option IdnRecord
  deriving DecidableEq, Repr

/-- A line-driver primitive (00_scope.md R7; 20_memory.md R33 to R35). -/
inductive Prim where
  | setMode (p : Line)
  | write (p : Line) (b : Bool)
  | read (p : Line)
  deriving DecidableEq, Repr

/-- How a primitive call ended: done, done with the bit a read reports, or failed. -/
inductive CallResult where
  | done
  | value (b : Bool)
  | failed
  deriving DecidableEq, Repr

/-- One primitive call and its result, an entry of a command's trace. -/
structure Call where
  prim : Prim
  result : CallResult
  deriving DecidableEq, Repr

/-- What reaches the machine between commands: a command of the host (10_state.md R13) or a level set
by the environment (20_memory.md R36). -/
inductive Input where
  | command (w : CommandWord)
  | disturb (p : Line) (b : Bool)
  deriving DecidableEq, Repr

/-- The whole state. `phase`, `modes` and `levels` are the spec's; `params` are its open parameters;
`response` and `calls` are what the last command returned and did; `inputs`, `environment` and
`draws` are the model's own (INVENTORY.md). -/
structure State where
  phase : Phase
  modes : PerLine Mode
  levels : PerLine Level
  params : Params
  response : Option Response
  calls : List Call
  inputs : List Input
  environment : List CallEnv
  draws : Nat
  deriving DecidableEq, Repr

/-- Reasons to stop with a fault. There is none: no condition of the block stops it (60_exceptions.md
R103, R107), so the type has no constructor. -/
inductive Fault where
  deriving DecidableEq, Repr

/-- Reasons to refuse a command; a refusal ends the run (60_exceptions.md R104). -/
inductive Refusal where
  /-- Raised by an arm of `exec` whose instruction has no meaning yet; safe. -/
  | notModelled (mnemonic : String)
  /-- Raised by `step` on a word that selects no row of the opcode map (R63); safe. -/
  | illegalCommand
  /-- Raised by the applies, the reads and `DISABLE_ALL` in phase UNINIT (R96, R104); safe. -/
  | notInitialized
  /-- Raised by `INIT` in phase READY or DISABLED (R96, R104); safe. -/
  | alreadyInitialized
  /-- Raised by the applies, the reads and `DISABLE_ALL` when a line they use is not an output
  (20_memory.md R44), which no run from reset reaches; safe. -/
  | lineNotConfigured
  deriving DecidableEq, Repr

/-- The outcome of a command. -/
abbrev Result := Host.Outcome State Fault Refusal

/-- The same value on every line. -/
def PerLine.const {α : Type} (a : α) : PerLine α := ⟨a, a, a, a, a, a, a, a, a, a⟩

/-- The state after reset (10_state.md R21 to R23; 70_reset_and_hazards.md R120, R121): phase UNINIT, no
line configured, no level known. The parameters and the environment are open (log 6, log 7). -/
def State.reset : State where
  phase := .uninit
  modes := .const .unconfigured
  levels := .const .unspecified
  params := Config.params
  response := none
  calls := []
  inputs := []
  environment := Config.environment
  draws := 0

end Sys2Proof.Machine
end

