-- ==== Sys2Proof/Machine/Flags.lean ====
section
/-! DEFINITION. The block has no flags (spec/40_apply.md R71 and every other instruction rule); what a
command reports is the status of its response. Its codes and its word are here (30_encoding.md R60;
60_exceptions.md R103). -/

namespace Sys2Proof.Machine

/-- The code of a status (30_encoding.md R60). -/
def statusCode : Status → BitVec 2
  | .ok => 0
  | .warnUnrecognized => 1
  | .driverFailure => 2

/-- The 6-bit response word, `status[5:4] val[3:0]` (30_encoding.md R60). -/
def responseWord (r : Response) : ResponseWord := statusCode r.status ++ r.val

/-- The status of a command whose operands are all recognized, or not (60_exceptions.md R100). -/
def settingStatus (recognized : Bool) : Status := if recognized then .ok else .warnUnrecognized

end Sys2Proof.Machine
end

