-- ==== Sys2Proof/WellFormed.lean ====
section
/-! DEFINITION. When a command is one that a command word can carry: an operand written as a raw tag
really is an unrecognized tag (spec/30_encoding.md R61). -/

namespace Sys2Proof

/-- A raw gain tag is 0 or 6 to 15 (30_encoding.md R61). -/
def GainOperand.wf : GainOperand → Bool
  | .setting _ => true
  | .unrecognized t => decide (t.toNat = 0 ∨ 6 ≤ t.toNat)

/-- A raw filter tag is 0 or 10 to 15 (30_encoding.md R61). -/
def FilterOperand.wf : FilterOperand → Bool
  | .setting _ => true
  | .unrecognized t => decide (t.toNat = 0 ∨ 10 ≤ t.toNat)

/-- Every operand of the command is well formed. -/
def Instr.wf : Instr → Bool
  | .applyGain t => t.wf
  | .applyFilter t => t.wf
  | .readGain => true
  | .readFilter => true
  | .disableAll => true
  | .init tg tf => tg.wf && tf.wf
  | .idn => true

end Sys2Proof
end

