-- ==== Sys2Proof/Decode.lean ====
section
/-! DEFINITION. Tags, the decoder of command words and the encoder (spec/30_encoding.md R50, R52, R58,
R59, R61, R63). -/

namespace Sys2Proof

/-- The tag of a gain setting: its 1-based row in the gain table (30_encoding.md R50). -/
def GainSetting.tag : GainSetting → Tag
  | .g1e9 => 1
  | .g1e8 => 2
  | .g1e7 => 3
  | .g1e6 => 4
  | .g1e5 => 5

/-- The tag of a cutoff setting: its 1-based row in the cutoff table (30_encoding.md R52). -/
def FilterSetting.tag : FilterSetting → Tag
  | .f1e6 => 1
  | .f1e5 => 2
  | .f3e4 => 3
  | .f1e4 => 4
  | .f3e3 => 5
  | .f1e3 => 6
  | .f300 => 7
  | .f100 => 8
  | .f30 => 9

/-- The operand a gain tag stands for (30_encoding.md R50, R61). -/
def gainOperandOf (t : Tag) : GainOperand :=
  match GainSetting.all.find? (fun g => g.tag == t) with
  | some g => .setting g
  | none => .unrecognized t

/-- The operand a filter tag stands for (30_encoding.md R52, R61). -/
def filterOperandOf (t : Tag) : FilterOperand :=
  match FilterSetting.all.find? (fun f => f.tag == t) with
  | some f => .setting f
  | none => .unrecognized t

/-- The tag that carries a gain operand. -/
def GainOperand.tag : GainOperand → Tag
  | .setting g => g.tag
  | .unrecognized t => t

/-- The tag that carries a filter operand. -/
def FilterOperand.tag : FilterOperand → Tag
  | .setting f => f.tag
  | .unrecognized t => t

/-- The fields of a command word (30_encoding.md R58). -/
def opField (w : CommandWord) : BitVec 4 := w.extractLsb' 8 4

/-- Field `a`, bits 7 to 4. -/
def aField (w : CommandWord) : Tag := w.extractLsb' 4 4

/-- Field `b`, bits 3 to 0. -/
def bField (w : CommandWord) : Tag := w.extractLsb' 0 4

/-- A row of the opcode map: a word `w` selects it when `w &&& mask = pattern` (30_encoding.md R59). -/
structure OpRow where
  pattern : CommandWord
  mask : CommandWord
  build : Tag → Tag → Instr

/-- The opcode map, in its own row order (30_encoding.md R59). -/
def opRows : List OpRow :=
  [ { pattern := 0x100, mask := 0xF0F, build := fun a _ => .applyGain (gainOperandOf a) },
    { pattern := 0x200, mask := 0xFF0, build := fun _ b => .applyFilter (filterOperandOf b) },
    { pattern := 0x300, mask := 0xFFF, build := fun _ _ => .readGain },
    { pattern := 0x400, mask := 0xFFF, build := fun _ _ => .readFilter },
    { pattern := 0x500, mask := 0xFFF, build := fun _ _ => .disableAll },
    { pattern := 0x000, mask := 0xF00, build := fun a b => .init (gainOperandOf a) (filterOperandOf b) },
    { pattern := 0x600, mask := 0xFFF, build := fun _ _ => .idn } ]

/-- The row's test on a word (30_encoding.md R59). -/
def OpRow.selects (r : OpRow) (w : CommandWord) : Bool := w &&& r.mask == r.pattern

/-- Why a command word is illegal (30_encoding.md R63). -/
inductive DecodeError where
  /-- `op` is 7 to 15. -/
  | reservedOpcode
  /-- A field that must be zero is not. -/
  | reservedField
  deriving DecidableEq, Repr

/-- The decoder, total on all 4096 command words (30_encoding.md R59, R63). -/
def decode (w : CommandWord) : Except DecodeError Instr :=
  match opRows.find? (fun r => r.selects w) with
  | some r => .ok (r.build (aField w) (bField w))
  | none => .error (if 7 ≤ (opField w).toNat then .reservedOpcode else .reservedField)

/-- The command word of an instruction, its three fields side by side (30_encoding.md R58, R59). -/
def encode : Instr → CommandWord
  | .applyGain t => 0x1#4 ++ t.tag ++ 0x0#4
  | .applyFilter t => 0x2#4 ++ 0x0#4 ++ t.tag
  | .readGain => 0x3#4 ++ 0x0#4 ++ 0x0#4
  | .readFilter => 0x4#4 ++ 0x0#4 ++ 0x0#4
  | .disableAll => 0x5#4 ++ 0x0#4 ++ 0x0#4
  | .init tg tf => 0x0#4 ++ tg.tag ++ tf.tag
  | .idn => 0x6#4 ++ 0x0#4 ++ 0x0#4

/-- The command word whose bits are the low `nbits` of `w`, if they are a 12-bit word (log 17). -/
def commandWordOf (nbits w : Nat) : Option CommandWord :=
  if w % 2 ^ nbits < 4096 then some (BitVec.ofNat 12 (w % 2 ^ nbits)) else none

/-- What the decoder reads from a word numbered as spec/opcode_table.json numbers it: the table's
numbering is the command word's own, bit 0 least significant (98_reader.md). -/
def decodeTableWord (nbits w : Nat) : Option Instr :=
  match commandWordOf nbits w with
  | none => none
  | some c =>
    match decode c with
    | .ok i => some i
    | .error _ => none

end Sys2Proof
end

