-- ==== Sys2Proof/Machine/Codec.lean ====
section
/-! DEFINITION. The two lookup tables, their decoders and the invalid-state detector
(spec/30_encoding.md R51, R53 to R56). The tables are the configuration constants of D24, kept here
with the document's literals; no state holds them (20_memory.md R32). -/

namespace Sys2Proof.Machine

/-- `GAIN_ENC`, elements for lines 2, 4, 6 (30_encoding.md R51). -/
def gainEnc : GainSetting → Pattern
  | .g1e9 => [false, false, true]
  | .g1e8 => [true, true, false]
  | .g1e7 => [false, true, false]
  | .g1e6 => [true, false, false]
  | .g1e5 => [false, false, false]

/-- `FILTER_ENC`, elements for lines 3, 5, 7, 9 (30_encoding.md R53). -/
def filterEnc : FilterSetting → Pattern
  | .f1e6 => [false, false, false, true]
  | .f1e5 => [true, true, true, false]
  | .f3e4 => [false, true, true, false]
  | .f1e4 => [true, false, true, false]
  | .f3e3 => [false, false, true, false]
  | .f1e3 => [true, true, false, false]
  | .f300 => [false, true, false, false]
  | .f100 => [true, false, false, false]
  | .f30 => [false, false, false, false]

/-- `GAIN_DEC`: the setting whose table row equals the pattern exactly; none is `Unknown`
(30_encoding.md R54). -/
def gainDec (v : Pattern) : Option GainSetting := GainSetting.all.find? (fun g => gainEnc g == v)

/-- `FILTER_DEC` (30_encoding.md R55). -/
def filterDec (v : Pattern) : Option FilterSetting :=
  FilterSetting.all.find? (fun f => filterEnc f == v)

/-- The tag of a decoded gain; `Unknown` is tag 0 (30_encoding.md R50; 41_read.md R83). -/
def gainTag : Option GainSetting → Tag
  | some g => g.tag
  | none => 0

/-- The tag of a decoded cutoff; `Unknown` is tag 0 (30_encoding.md R52; 41_read.md R83). -/
def filterTag : Option FilterSetting → Tag
  | some f => f.tag
  | none => 0

/-- The packed form of a pattern, element `i` at bit `i` (00_scope.md R5; 20_memory.md R40). -/
def packed : Pattern → Nat
  | [] => 0
  | b :: v => b.toNat + 2 * packed v

/-- The gain a setting names, a multiplier without unit (30_encoding.md R50): a label only. -/
def gainValue : GainSetting → Nat
  | .g1e9 => 1000000000
  | .g1e8 => 100000000
  | .g1e7 => 10000000
  | .g1e6 => 1000000
  | .g1e5 => 100000

/-- The cutoff a setting names, in Hz (30_encoding.md R52): a label only. -/
def filterValue : FilterSetting → Nat
  | .f1e6 => 1000000
  | .f1e5 => 100000
  | .f3e4 => 30000
  | .f1e4 => 10000
  | .f3e3 => 3000
  | .f1e3 => 1000
  | .f300 => 300
  | .f100 => 100
  | .f30 => 30

end Sys2Proof.Machine
end

