-- ==== Sys2Proof/Machine/Operands.lean ====
section
/-! DEFINITION. Operand forms and routing: the pattern an operand asks for, and the lines its
elements go to (spec/30_encoding.md R57, R61; 20_memory.md R31). -/

namespace Sys2Proof.Machine

/-- The pattern a gain operand asks for; an unrecognized tag asks for none (40_apply.md R71). -/
def gainPattern : GainOperand → Option Pattern
  | .setting g => some (gainEnc g)
  | .unrecognized _ => none

/-- The pattern a filter operand asks for (40_apply.md R72). -/
def filterPattern : FilterOperand → Option Pattern
  | .setting f => some (filterEnc f)
  | .unrecognized _ => none

/-- `GAIN_PIN`, in element order (30_encoding.md R57). -/
def gainPins : List Line := [.line2, .line4, .line6]

/-- `FILTER_PIN`, in element order (30_encoding.md R57). -/
def filterPins : List Line := [.line3, .line5, .line7, .line9]

/-- `ALL_LINES` (10_state.md R14). Every rule that goes through it leaves the order free, so the
listing order carries no meaning. -/
def allLines : List Line :=
  [.line2, .line3, .line4, .line5, .line6, .line7, .line9, .ctrlHigh, .ctrlLow, .spare]

/-- The identifier of a line (20_memory.md R31); three of them are open (00_scope.md R4). -/
def lineIdent : Line → Nat
  | .line2 => 2
  | .line3 => 3
  | .line4 => 4
  | .line5 => 5
  | .line6 => 6
  | .line7 => 7
  | .line9 => 9
  | .ctrlHigh => Config.openPins.ctrlHigh
  | .ctrlLow => Config.openPins.ctrlLow
  | .spare => Config.openPins.spare

/-- The writes of a clear phase: 0 to every line of the group (40_apply.md R70). -/
def clearWrites (pins : List Line) : List (Line × Bool) := pins.map (fun p => (p, false))

/-- The lines of a group whose table bit is 1 (40_apply.md R70). -/
def setLines : List Line → Pattern → List Line
  | p :: ps, b :: bs => if b then p :: setLines ps bs else setLines ps bs
  | _, _ => []

/-- The writes of a set phase: 1 to exactly those lines (40_apply.md R70). -/
def setWrites (pins : List Line) (v : Pattern) : List (Line × Bool) :=
  (setLines pins v).map (fun p => (p, true))

end Sys2Proof.Machine
end

