-- ==== Sys2Proof/Machine/Ops.lean ====
section
/-! DEFINITION. The operations the commands share: access to the lines, the environment's moves, the
three primitives, sequences of them, and how a command ends. A condition of the block ends a command
through `respond` or `refused`; there is no trap to take or to return from (spec/60_exceptions.md
R107, R108). -/

namespace Sys2Proof.Machine

/-- The value of a line. -/
def PerLine.get {α : Type} (m : PerLine α) : Line → α
  | .line2 => m.line2
  | .line3 => m.line3
  | .line4 => m.line4
  | .line5 => m.line5
  | .line6 => m.line6
  | .line7 => m.line7
  | .line9 => m.line9
  | .ctrlHigh => m.ctrlHigh
  | .ctrlLow => m.ctrlLow
  | .spare => m.spare

/-- Another value on one line, every other line as it was (20_memory.md R34). -/
def PerLine.set {α : Type} (m : PerLine α) (p : Line) (a : α) : PerLine α :=
  match p with
  | .line2 => { m with line2 := a }
  | .line3 => { m with line3 := a }
  | .line4 => { m with line4 := a }
  | .line5 => { m with line5 := a }
  | .line6 => { m with line6 := a }
  | .line7 => { m with line7 := a }
  | .line9 => { m with line9 := a }
  | .ctrlHigh => { m with ctrlHigh := a }
  | .ctrlLow => { m with ctrlLow := a }
  | .spare => { m with spare := a }

/-- Sets levels in the order of the list (20_memory.md R34, R36). A line that the environment sets holds the
bit from then on, also where the codec never wrote it: DESIGN CHOICE, unsafe (log 27). -/
def setLevels : List (Line × Bool) → PerLine Level → PerLine Level
  | [], m => m
  | w :: ws, m => setLevels ws (m.set w.1 (.holds w.2))

/-- Configures lines as outputs in the order of the list (20_memory.md R33). -/
def setOutputs : List Line → PerLine Mode → PerLine Mode
  | [], m => m
  | p :: ps, m => setOutputs ps (m.set p .output)

/-- The levels of the gain group, element 0 first: the view `gain` (10_state.md R17, R18). -/
def gainLevels (s : State) : List Level := gainPins.map s.levels.get

/-- The levels of the filter group, element 0 first: the view `LPF` (10_state.md R17, R18). -/
def filterLevels (s : State) : List Level := filterPins.map s.levels.get

/-- Whether every line of a group is an output, as 20_memory.md R44 asks of the lines a command
writes or reads. -/
def configured (pins : List Line) (s : State) : Bool :=
  pins.all (fun p => s.modes.get p == .output)

/-- What the environment does at the next primitive call; past the end of the list, nothing (log 7). -/
def nextCallEnv (s : State) : CallEnv := s.environment.headD .quiet

/-- Whether the next primitive call fails (60_exceptions.md R102). -/
def callFails (s : State) : Bool := s.params.driverMayFail && (nextCallEnv s).fails

/-- The levels the environment sets just before the next primitive call (20_memory.md R36). -/
def callDisturbs (s : State) : List (Line × Bool) :=
  if s.params.externalDisturbance then (nextCallEnv s).disturb else []

/-- The environment moves, then the next primitive call begins (20_memory.md R36; for lines the codec never
wrote see log 27). -/
def beginCall (s : State) : State :=
  { s with levels := setLevels (callDisturbs s) s.levels, environment := s.environment.tail }

/-- Takes `n` free values. -/
def spend (n : Nat) (s : State) : State := { s with draws := s.draws + n }

/-- Enters a primitive call and its result in the command's trace. -/
def recordCall (c : Call) (s : State) : State := { s with calls := s.calls ++ [c] }

/-- Sets the level of a line. -/
def putLevel (p : Line) (l : Level) (s : State) : State := { s with levels := s.levels.set p l }

/-- Sets the mode of a line. -/
def putMode (p : Line) (m : Mode) (s : State) : State := { s with modes := s.modes.set p m }

/-- Sets the phase (10_state.md R11). -/
def putPhase (ph : Phase) (s : State) : State := { s with phase := ph }

/-- The result of primitive calls: the state after them, and whether all of them succeeded. -/
structure Run where
  state : State
  ok : Bool

/-- Goes on with `f` unless a call failed: a command ends at the failing call (60_exceptions.md R102). -/
def Run.andThen (r : Run) (f : State → Run) : Run := if r.ok then f r.state else r

/-- What a failed write leaves on a line: a draw. A line never written stays so, since its every read
is a draw already (20_memory.md R34, D15; log 4). -/
def failedLevel (n : Nat) : Level → Level
  | .unspecified => .unspecified
  | .holds _ => .holds (Config.freeLevel n)

/-- What a failed `LineSetMode` leaves: the mode as it was, or OUTPUT (log 5). -/
def failedMode (n : Nat) (m : Mode) : Mode := if Config.freeConfigured n then .output else m

/-- `LineSetMode(p, OUTPUT)` (20_memory.md R33). -/
def lineSetMode (p : Line) (s : State) : Run :=
  let s1 := beginCall s
  if callFails s then
    ⟨recordCall ⟨.setMode p, .failed⟩ (spend 1 (putMode p (failedMode s1.draws (s1.modes.get p)) s1)), false⟩
  else
    ⟨recordCall ⟨.setMode p, .done⟩ (putMode p .output s1), true⟩

/-- `LineWrite(p, b)` (20_memory.md R34). -/
def lineWrite (p : Line) (b : Bool) (s : State) : Run :=
  let s1 := beginCall s
  if callFails s then
    ⟨recordCall ⟨.write p b, .failed⟩ (spend 1 (putLevel p (failedLevel s1.draws (s1.levels.get p)) s1)), false⟩
  else
    ⟨recordCall ⟨.write p b, .done⟩ (putLevel p (.holds b) s1), true⟩

/-- The bit a read of a level reports: the level, or a draw (20_memory.md R35; 10_state.md R23). -/
def readLevel (n : Nat) : Level → Bool
  | .unspecified => Config.freeLevel n
  | .holds b => b

/-- `LineRead(p)`: the bit, or none if the call fails (20_memory.md R35; 60_exceptions.md R102). -/
def lineRead (p : Line) (s : State) : State × Option Bool :=
  let s1 := beginCall s
  if callFails s then (recordCall ⟨.read p, .failed⟩ s1, none)
  else
    let b := readLevel s1.draws (s1.levels.get p)
    (recordCall ⟨.read p, .value b⟩ (spend 1 s1), some b)

/-- Configures the lines in the order of the list, ending at a failure. -/
def setModeSeq : List Line → State → Run
  | [], s => ⟨s, true⟩
  | p :: ps, s => (lineSetMode p s).andThen (setModeSeq ps)

/-- Makes the writes in the order of the list, ending at a failure. -/
def writeSeq : List (Line × Bool) → State → Run
  | [], s => ⟨s, true⟩
  | w :: ws, s => (lineWrite w.1 w.2 s).andThen (writeSeq ws)

/-- Reads the lines in the order of the list (41_read.md R80, D13), ending at a failure. -/
def readSeq : List Line → State → State × Option Pattern
  | [], s => (s, some [])
  | p :: ps, s =>
    let r := lineRead p s
    match r.2 with
    | none => (r.1, none)
    | some b => ((readSeq ps r.1).1, (readSeq ps r.1).2.map (fun v => b :: v))

/-- A free order of a list: every order is the answer of some choice of `Config.freePick`
(20_memory.md R37; 40_apply.md R70, D12). -/
def arrange {α : Type} (n : Nat) : List α → List α
  | [] => []
  | x :: xs => (arrange (n + 1) xs).insertIdx (Config.freePick n % (xs.length + 1)) x

/-- `for each ... (any order)`: the writes in a free order. -/
def writeAnyOrder (ws : List (Line × Bool)) (s : State) : Run :=
  writeSeq (arrange s.draws ws) (spend ws.length s)

/-- `for each ... (any order)`: the mode settings in a free order. -/
def setModeAnyOrder (ps : List Line) (s : State) : Run :=
  setModeSeq (arrange s.draws ps) (spend ps.length s)

/-- Clear, then set: the whole clear phase, then the set phase (40_apply.md R70). -/
def applyPattern (pins : List Line) (v : Pattern) (s : State) : Run :=
  (writeAnyOrder (clearWrites pins) s).andThen (writeAnyOrder (setWrites pins v))

/-- The body of an apply without its phase test: an unrecognized tag makes no call (40_apply.md R71,
R72; 42_control.md R92). -/
def applyBody (pins : List Line) (v : Option Pattern) (s : State) : Run :=
  match v with
  | none => ⟨s, true⟩
  | some v => applyPattern pins v s

/-- A command begins with an empty trace. -/
def startCommand (s : State) : State := { s with calls := [] }

/-- `respond(status, val)` (00_scope.md R7; 30_encoding.md R60). -/
def respond (st : Status) (val : Tag) (s : State) : State :=
  { s with response := some ⟨st, val, none⟩ }

/-- How a command that writes lines ends: `finish` on success, else DRIVER_FAILURE with the phase
unchanged (60_exceptions.md R102). -/
def conclude (r : Run) (finish : State → State) : State :=
  if r.ok then finish r.state else respond .driverFailure 0 r.state

/-- The admission test of a command on a group of lines (42_control.md R96; 20_memory.md R44). -/
def onOperating (pins : List Line) (s : State) (body : State → State) : Result :=
  if s.phase = .uninit then .refused .notInitialized
  else if configured pins s then .next (body (startCommand s))
  else .refused .lineNotConfigured

/-- An apply on a group of lines (40_apply.md R71, R72). An unrecognized tag is found before any line
is used (60_exceptions.md R106). -/
def applyGroup (pins : List Line) (v : Option Pattern) (s : State) : Result :=
  onOperating (if v.isSome then pins else []) s fun s1 =>
    conclude (applyBody pins v s1) (respond (settingStatus v.isSome) 0)

/-- A read of a group of lines (41_read.md R80, R81). -/
def readGroup (pins : List Line) (decoded : Pattern → Tag) (s : State) : Result :=
  onOperating pins s fun s1 =>
    match (readSeq pins s1).2 with
    | none => respond .driverFailure 0 (readSeq pins s1).1
    | some v => respond .ok (decoded v) (readSeq pins s1).1

end Sys2Proof.Machine
end

