-- ==== Sys2Proof/Machine/Apply.lean ====
section
/-! DEFINITION. The apply commands (spec/40_apply.md). -/

namespace Sys2Proof.Machine

/-- `APPLY_GAIN t` (40_apply.md R71). -/
def execApplyGain (t : GainOperand) (s : State) : Result :=
  applyGroup gainPins (gainPattern t) s

/-- `APPLY_FILTER t` (40_apply.md R72). -/
def execApplyFilter (t : FilterOperand) (s : State) : Result :=
  applyGroup filterPins (filterPattern t) s

end Sys2Proof.Machine
end

