-- ==== Sys2Proof/Machine/Control.lean ====
section
/-! DEFINITION. The control commands (spec/42_control.md). -/

namespace Sys2Proof.Machine

/-- `DISABLE_ALL` (42_control.md R90). -/
def execDisableAll (s : State) : Result :=
  onOperating allLines s fun s1 =>
    conclude (writeAnyOrder (clearWrites allLines) s1) fun s2 => respond .ok 0 (putPhase .disabled s2)

/-- The writes of step 3 of the initialization, the high line first (42_control.md R92, D14). -/
def controlWrites : List (Line × Bool) := [(.ctrlHigh, true), (.ctrlLow, false)]

/-- Steps 2 to 4 of the initialization sequence (42_control.md R92). -/
def initSteps (tg : GainOperand) (tf : FilterOperand) (s : State) : Run :=
  (((setModeAnyOrder allLines s).andThen (writeSeq controlWrites)).andThen
    (applyBody gainPins (gainPattern tg))).andThen (applyBody filterPins (filterPattern tf))

/-- The initialization of a machine in phase UNINIT: a failed connection first, then the sequence
(42_control.md R92; 60_exceptions.md R106). -/
def runInit (tg : GainOperand) (tf : FilterOperand) (s : State) : State :=
  if s.params.connected then
    conclude (initSteps tg tf s) fun s1 =>
      respond (settingStatus ((gainPattern tg).isSome && (filterPattern tf).isSome)) 0 (putPhase .ready s1)
  else respond .driverFailure 0 s

/-- `INIT tg, tf` (42_control.md R92). -/
def execInit (tg : GainOperand) (tf : FilterOperand) (s : State) : Result :=
  if s.phase = .uninit then .next (runInit tg tf (startCommand s))
  else .refused .alreadyInitialized

/-- The identification record, with no serial number (42_control.md R94). -/
def idnRecord : IdnRecord := ⟨Config.idnVendor, Config.idnModel, none, Config.idnFirmware⟩

/-- `IDN`: the record, in every phase, with no primitive call (42_control.md R94). -/
def execIdn (s : State) : Result :=
  .next { startCommand s with response := some ⟨.ok, 0, some idnRecord⟩ }

end Sys2Proof.Machine
end

