-- ==== Sys2Proof/Machine/Read.lean ====
section
/-! DEFINITION. The read commands (spec/41_read.md). -/

namespace Sys2Proof.Machine

/-- `READ_GAIN` (41_read.md R80). -/
def execReadGain (s : State) : Result :=
  readGroup gainPins (fun v => gainTag (gainDec v)) s

/-- `READ_FILTER` (41_read.md R81). -/
def execReadFilter (s : State) : Result :=
  readGroup filterPins (fun v => filterTag (filterDec v)) s

end Sys2Proof.Machine
end

