-- ==== Sys2Proof/Machine/Dispatch.lean ====
section
/-! DEFINITION. The dispatch of the seven commands to their meanings (spec/opcode_table.json). -/

namespace Sys2Proof.Machine

def exec (i : Instr) (s : State) : Host.Outcome State Fault Refusal :=
  match i with
  | .applyGain t => Sys2Proof.Machine.execApplyGain t s
  | .applyFilter t => Sys2Proof.Machine.execApplyFilter t s
  | .readGain => Sys2Proof.Machine.execReadGain s
  | .readFilter => Sys2Proof.Machine.execReadFilter s
  | .disableAll => Sys2Proof.Machine.execDisableAll s
  | .init tg tf => Sys2Proof.Machine.execInit tg tf s
  | .idn => Sys2Proof.Machine.execIdn s

end Sys2Proof.Machine
end

