-- ==== Sys2Proof/Machine/Inputs.lean ====
section
/-! DEFINITION. How a step takes its next input (spec/10_state.md R13; 20_memory.md R36; 60_exceptions.md
R106, R111). -/

namespace Sys2Proof.Machine

/-- What the oldest input asks for. -/
inductive Action where
  /-- No input is pending. -/
  | idle
  /-- The environment moved. -/
  | environment (s : State)
  /-- The command word is illegal. -/
  | illegal
  /-- The command to run, and the state without its word. -/
  | run (i : Instr) (s : State)

/-- Takes an input off the list. -/
def dropInput (s : State) : State := { s with inputs := s.inputs.tail }

/-- A level set by the environment between two commands; there is no such step when
`EXTERNAL_DISTURBANCE` does not hold, and the entry is passed over (20_memory.md R36; log 18). A line that
the codec never wrote holds the bit from then on: DESIGN CHOICE, unsafe (log 27). -/
def disturbLine (p : Line) (b : Bool) (s : State) : State :=
  if s.params.externalDisturbance then putLevel p (.holds b) s else s

/-- Reads the oldest input, decoding a command word first of all (60_exceptions.md R106). -/
def nextInput (s : State) : Action :=
  match s.inputs with
  | [] => .idle
  | .disturb p b :: _ => .environment (disturbLine p b (dropInput s))
  | .command w :: _ =>
    match decode w with
    | .ok i => .run i (dropInput s)
    | .error _ => .illegal

end Sys2Proof.Machine
end

