-- ==== Sys2Proof/Machine/Step.lean ====
section
/-! DEFINITION. One step of the machine: the next input of the host or of the environment
(spec/10_state.md R10, R13; 20_memory.md R36). -/

namespace Sys2Proof.Machine

/-- Takes the oldest input. A command word is decoded and run to its response; a disturbance sets a
level; with no input the machine waits, unchanged (log 2). -/
def step (s : State) : Host.Outcome State Fault Refusal :=
  match nextInput s with
  | .idle => .next s
  | .environment s1 => .next s1
  | .illegal => .refused .illegalCommand
  | .run i s1 => exec i s1

/-- The state with the command whose bits are the low `nbits` of `w` placed before every other input,
so that the next step runs it (log 17). -/
def State.withFetchWord (s : State) (nbits w : Nat) : State :=
  match commandWordOf nbits w with
  | some c => { s with inputs := .command c :: s.inputs }
  | none => s

end Sys2Proof.Machine
end

