-- ==== Sys2Proof/Safety.lean ====
section
/-! DEFINITION. The words claims are stated in: what the environment does in a run, what the lines
hold, what a command's trace holds, and the invariants (spec/20_memory.md R36; 10_state.md R20;
70_reset_and_hazards.md R126). -/

namespace Sys2Proof.Machine

/-- No primitive call still to come fails (60_exceptions.md R102). -/
def NoFailure (s : State) : Prop :=
  s.params.driverMayFail = false ∨ ∀ e ∈ s.environment, e.fails = false

/-- The environment sets no level inside a command still to come (20_memory.md R36). -/
def Undisturbed (s : State) : Prop :=
  s.params.externalDisturbance = false ∨ ∀ e ∈ s.environment, e.disturb = []

/-- The environment sets no level at the calls made from `s` to `t`: of the entries used up between the
two states none disturbs (20_memory.md R36). -/
def UndisturbedUntil (s t : State) : Prop :=
  s.params.externalDisturbance = false ∨
    ∀ e ∈ s.environment.take (s.environment.length - t.environment.length), e.disturb = []

/-- Neither a failure nor a disturbance. -/
def Calm (s : State) : Prop := NoFailure s ∧ Undisturbed s

/-- The codec is in an operating phase, with the lines of a group configured as outputs. -/
def Operating (pins : List Line) (s : State) : Prop :=
  s.phase ≠ .uninit ∧ configured pins s = true

/-- What no command but `INIT` changes besides the levels, the phase and the command's own outputs. That the
parameters and the inputs are fields, which a command leaves alone, is the model's choice (log 6, log 1). -/
def SameSetup (s t : State) : Prop :=
  t.modes = s.modes ∧ t.params = s.params ∧ t.inputs = s.inputs

/-- Every line outside a list keeps its level. -/
def LevelsKeptOutside (pins : List Line) (s t : State) : Prop :=
  ∀ p, p ∉ pins → t.levels.get p = s.levels.get p

/-- The lines of a group hold a pattern, in element order. -/
def Holds (pins : List Line) (v : Pattern) (m : PerLine Level) : Prop :=
  pins.map m.get = v.map .holds

/-- The gain lines hold a row of the gain table (10_state.md R20). -/
def GainValid (m : PerLine Level) : Prop := ∃ g, Holds gainPins (gainEnc g) m

/-- The filter lines hold a row of the cutoff table (10_state.md R20). -/
def FilterValid (m : PerLine Level) : Prop := ∃ f, Holds filterPins (filterEnc f) m

/-- No line of a group has a known level (10_state.md R23). -/
def NeverWritten (pins : List Line) (m : PerLine Level) : Prop :=
  ∀ p ∈ pins, m.get p = .unspecified

/-- A pattern that reads of the given levels may report: the level where it is known, any bit where it
is not (10_state.md R23; a level that only the environment has set counts as known, log 27). -/
def Reads (ls : List Level) (v : Pattern) : Prop :=
  List.Forall₂ (fun l b => l = .unspecified ∨ l = .holds b) ls v

/-- One primitive call, whichever it is (00_scope.md R7). -/
def runPrim : Prim → State → Run
  | .setMode p, s => lineSetMode p s
  | .write p b, s => lineWrite p b s
  | .read p, s => ⟨(lineRead p s).1, (lineRead p s).2.isSome⟩

/-- Primitive calls one after the other, ending at a failure. -/
def runPrims : List Prim → State → Run
  | [], s => ⟨s, true⟩
  | a :: as, s => (runPrim a s).andThen (runPrims as)

/-- The primitives of a trace. -/
def prims (s : State) : List Prim := s.calls.map Call.prim

/-- The writes of a list as primitives. -/
def writePrims (ws : List (Line × Bool)) : List Prim := ws.map (fun w => .write w.1 w.2)

/-- What the successful writes of a trace make of the levels. -/
def replay : List Call → PerLine Level → PerLine Level
  | [], m => m
  | ⟨.write p b, .done⟩ :: cs, m => replay cs (m.set p (.holds b))
  | _ :: cs, m => replay cs m

/-- The levels the environment sets before the first of the calls to come (20_memory.md R36; log 7). -/
def movesOf (ext : Bool) (es : List CallEnv) : List (Line × Bool) :=
  if ext then (es.headD .quiet).disturb else []

/-- What the environment's moves and the successful writes of a trace make of the levels: before each call
the moves of its entry, then the call. -/
def replayMoves (ext : Bool) : List CallEnv → List Call → PerLine Level → PerLine Level
  | _, [], m => m
  | es, c :: cs, m => replayMoves ext es.tail cs (replay [c] (setLevels (movesOf ext es) m))

/-- The levels after the calls of a trace made from `s`, with the moves of the environment between them. -/
def levelsAfter (s : State) (cs : List Call) : PerLine Level :=
  replayMoves s.params.externalDisturbance s.environment cs s.levels

/-- The status of the last response (60_exceptions.md R103). -/
def status (s : State) : Option Status := s.response.map (·.status)

/-- `c` and `d` are a clear phase and a set phase of an apply, each in an order of its own; an
unrecognized operand has neither (40_apply.md R70). -/
def ClearThenSet (pins : List Line) (v : Option Pattern) (c d : List (Line × Bool)) : Prop :=
  match v with
  | none => c = [] ∧ d = []
  | some v => c.Perm (clearWrites pins) ∧ d.Perm (setWrites pins v)

/-- Commands run one after the other, ending at the first that gives no next state. -/
def execAll : List Instr → State → Result
  | [], s => .next s
  | i :: is, s =>
    match exec i s with
    | .next t => execAll is t
    | .fault r => .fault r
    | .refused r => .refused r

/-- Commands that make no write to a gain line; an apply of an unrecognized tag makes none (41_read.md R82;
40_apply.md R71). -/
def sparesGain : Instr → Bool
  | .applyGain (.setting _) => false
  | .applyGain (.unrecognized _) => true
  | .applyFilter _ => true
  | .readGain => true
  | .readFilter => true
  | .disableAll => false
  | .init _ _ => false
  | .idn => true

/-- Commands that make no write to a filter line (41_read.md R82; 40_apply.md R72). -/
def sparesFilter : Instr → Bool
  | .applyGain _ => true
  | .applyFilter (.setting _) => false
  | .applyFilter (.unrecognized _) => true
  | .readGain => true
  | .readFilter => true
  | .disableAll => false
  | .init _ _ => false
  | .idn => true

/-- A word that selects no row of the opcode map, field by field (30_encoding.md R63). -/
def IllegalWord (w : CommandWord) : Prop :=
  7 ≤ (opField w).toNat ∨ (opField w = 1 ∧ bField w ≠ 0) ∨ (opField w = 2 ∧ aField w ≠ 0) ∨
    (3 ≤ (opField w).toNat ∧ (aField w ≠ 0 ∨ bField w ≠ 0))

/-- Neither failures nor disturbances can happen, now or later: the two parameters are false. -/
def QuietBench (s : State) : Prop :=
  s.params.driverMayFail = false ∧ s.params.externalDisturbance = false

/-- Outside UNINIT every line is an output (10_state.md R24; 20_memory.md R44). -/
def OutputsConfigured (s : State) : Prop := s.phase ≠ .uninit → configured allLines s = true

/-- The control lines are at (1, 0) while READY; after a disable they and the tenth line stay at 0
(10_state.md R19; 42_control.md R91; 70_reset_and_hazards.md R130). -/
def ControlLinesHeld (s : State) : Prop :=
  QuietBench s →
    (s.phase = .ready → s.levels.ctrlHigh = .holds true ∧ s.levels.ctrlLow = .holds false) ∧
    (s.phase = .disabled →
      s.levels.ctrlHigh = .holds false ∧ s.levels.ctrlLow = .holds false ∧ s.levels.spare = .holds false)

/-- Each setting group holds a row of its table or was never written at all (10_state.md R20). -/
def SettingLinesValid (s : State) : Prop :=
  QuietBench s →
    (NeverWritten gainPins s.levels ∨ GainValid s.levels) ∧
    (NeverWritten filterPins s.levels ∨ FilterValid s.levels)

end Sys2Proof.Machine
end

