-- ==== Sys2Proof/Certificates/Slice0/Obligations.lean ====
section
/-! DEFINITION. The statements for the provers. Each docstring names the rule of spec/ it rests on. -/

open Sys2Proof Sys2Proof.Machine

/-! ### Encoding -/

/-- spec/30_encoding.md R58, R59, R61: the word of a well-formed command decodes to that command. -/
def Obligations.DecodeOfEncode : Prop :=
  ∀ i : Instr, i.wf = true → decode (encode i) = .ok i

/-- R59, R61: a word that decodes is the word of the well-formed command it decodes to. -/
def Obligations.EncodeOfDecode : Prop :=
  ∀ (w : CommandWord) (i : Instr), decode w = .ok i → i.wf = true ∧ encode i = w

/-- R63: a word with `op` 7 to 15 or a nonzero reserved field selects no row and is refused with reason
IllegalCommand, whatever the state; every other word decodes. -/
def Obligations.IllegalWordsRefused : Prop :=
  ∀ w : CommandWord,
    (IllegalWord w → (∀ r ∈ opRows, r.selects w = false) ∧ (∀ i, decode w ≠ .ok i) ∧
      ∀ (s : State) (rest : List Input), s.inputs = .command w :: rest →
        step s = .refused .illegalCommand) ∧
    (¬ IllegalWord w → ∃ i, decode w = .ok i)

/-- R59: no word selects two rows of the opcode map. -/
def Obligations.OpcodeRowsDisjoint : Prop :=
  opRows.Pairwise fun r r' => ∀ w : CommandWord, ¬ (r.selects w = true ∧ r'.selects w = true)

/-- R58, R59, on words written out from the opcode map, one for each command and three illegal ones. -/
def Obligations.SampleWordsDecode : Prop :=
  decode 0x026 = .ok (.init (.setting .g1e8) (.setting .f1e3)) ∧
  decode 0x120 = .ok (.applyGain (.setting .g1e8)) ∧
  decode 0x1F0 = .ok (.applyGain (.unrecognized 15)) ∧
  decode 0x209 = .ok (.applyFilter (.setting .f30)) ∧
  decode 0x300 = .ok .readGain ∧ decode 0x400 = .ok .readFilter ∧
  decode 0x500 = .ok .disableAll ∧ decode 0x600 = .ok .idn ∧
  decode 0x121 = .error .reservedField ∧ decode 0x301 = .error .reservedField ∧
  decode 0x700 = .error .reservedOpcode

/-! ### Tables, routing, response words -/

/-- R54: the gain decoder answers a setting exactly where the vector is the setting's table row; on each
of the eight vectors its packed number, its tag and the gain it names are those of the rule's table; and
the detector fires exactly when `L[6] = 1` and (`L[2] = 1` or `L[4] = 1`). -/
def Obligations.GainDecoderMap : Prop :=
  (∀ v g, gainDec v = some g ↔ gainEnc g = v) ∧
  (∀ r ∈ ([
      ([false, false, false], 0, 5, some 100000),
      ([true, false, false], 1, 4, some 1000000),
      ([false, true, false], 2, 3, some 10000000),
      ([true, true, false], 3, 2, some 100000000),
      ([false, false, true], 4, 1, some 1000000000),
      ([true, false, true], 5, 0, none),
      ([false, true, true], 6, 0, none),
      ([true, true, true], 7, 0, none)] :
        List (Pattern × Nat × Tag × Option Nat)),
    packed r.1 = r.2.1 ∧ gainTag (gainDec r.1) = r.2.2.1 ∧ (gainDec r.1).map gainValue = r.2.2.2) ∧
  ∀ a b c, gainDec [a, b, c] = none ↔ (c = true ∧ (a = true ∨ b = true))

/-- R55: the filter decoder, in the same way, on the sixteen vectors. -/
def Obligations.FilterDecoderMap : Prop :=
  (∀ v f, filterDec v = some f ↔ filterEnc f = v) ∧
  (∀ r ∈ ([
      ([false, false, false, false], 0, 9, some 30),
      ([true, false, false, false], 1, 8, some 100),
      ([false, true, false, false], 2, 7, some 300),
      ([true, true, false, false], 3, 6, some 1000),
      ([false, false, true, false], 4, 5, some 3000),
      ([true, false, true, false], 5, 4, some 10000),
      ([false, true, true, false], 6, 3, some 30000),
      ([true, true, true, false], 7, 2, some 100000),
      ([false, false, false, true], 8, 1, some 1000000),
      ([true, false, false, true], 9, 0, none),
      ([false, true, false, true], 10, 0, none),
      ([true, true, false, true], 11, 0, none),
      ([false, false, true, true], 12, 0, none),
      ([true, false, true, true], 13, 0, none),
      ([false, true, true, true], 14, 0, none),
      ([true, true, true, true], 15, 0, none)] :
        List (Pattern × Nat × Tag × Option Nat)),
    packed r.1 = r.2.1 ∧ filterTag (filterDec r.1) = r.2.2.1 ∧
      (filterDec r.1).map filterValue = r.2.2.2) ∧
  ∀ a b c d, filterDec [a, b, c, d] = none ↔ (d = true ∧ (a = true ∨ b = true ∨ c = true))

/-- R56 laws (a), (b), (c): encode and decode are inverse to each other, and the packed pattern of tag
`t` is `5 - t` for the gain and `9 - t` for the cutoff. -/
def Obligations.CodecLaws : Prop :=
  (∀ g, gainDec (gainEnc g) = some g ∧ packed (gainEnc g) + (gainTag (some g)).toNat = 5) ∧
  (∀ v g, gainDec v = some g → gainEnc g = v) ∧
  (∀ f, filterDec (filterEnc f) = some f ∧ packed (filterEnc f) + (filterTag (some f)).toNat = 9) ∧
  (∀ v f, filterDec v = some f → filterEnc f = v)

/-- R4, R14, R31: the ten lines have ten different identifiers, the open ones included; the gain and
the filter lines have the identifiers of the map. -/
def Obligations.LineIdentifiersDistinct : Prop :=
  (∀ p q : Line, lineIdent p = lineIdent q → p = q) ∧ allLines.length = 10 ∧ (∀ p, p ∈ allLines) ∧
  gainPins.map lineIdent = [2, 4, 6] ∧ filterPins.map lineIdent = [3, 5, 7, 9]

/-- R60, R103: the status is in bits 5 to 4 of a response word, the tag in bits 3 to 0; the codes are 0 for
OK, 1 for WARN_UNRECOGNIZED, 2 for DRIVER_FAILURE, and 3 is never produced. -/
def Obligations.ResponseWordLayout : Prop :=
  statusCode .ok = 0 ∧ statusCode .warnUnrecognized = 1 ∧ statusCode .driverFailure = 2 ∧
  ∀ r : Response, (responseWord r).extractLsb' 4 2 = statusCode r.status ∧
    (responseWord r).extractLsb' 0 4 = r.val ∧ (responseWord r).extractLsb' 4 2 ≠ 3

/-! ### Primitives -/

/-- R34, R36: let `m` be the levels with what the environment sets just before the call. A write that
succeeds sets its line to the bit; a write that fails leaves a line with a known level at some bit. Either
way every other line is as in `m`, modes and phase stay, and the environment's entry is used up (the form
of the environment is the model's, log 7). That a failed write leaves a line without a known level as it
is, is the model's choice (log 4), and so is that a line only the environment has set counts as known
(log 27). -/
def Obligations.LineWriteEffect : Prop :=
  ∀ (s : State) (p : Line) (b : Bool) (m : PerLine Level), m = setLevels (callDisturbs s) s.levels →
    ((lineWrite p b s).ok = !callFails s) ∧
    ((lineWrite p b s).ok = true → (lineWrite p b s).state.levels.get p = .holds b) ∧
    ((lineWrite p b s).ok = false →
      (m.get p = .unspecified → (lineWrite p b s).state.levels.get p = .unspecified) ∧
      (m.get p ≠ .unspecified → ∃ x, (lineWrite p b s).state.levels.get p = .holds x)) ∧
    (∀ q, q ≠ p → (lineWrite p b s).state.levels.get q = m.get q) ∧
    (lineWrite p b s).state.modes = s.modes ∧ (lineWrite p b s).state.phase = s.phase ∧
    (lineWrite p b s).state.environment = s.environment.tail

/-- R38: a read that follows a write to the same line, with other calls between them but no other write
to the line, and with no failure and no environment step from the write to the end of the read, returns
the bit written. -/
def Obligations.ReadAfterWrite : Prop :=
  ∀ (s t u : State) (p : Line) (b : Bool) (between : List Prim),
    (∀ x, Prim.write p x ∉ between) →
    t = (lineWrite p b s).state → (lineWrite p b s).ok = true →
    u = (runPrims between t).state → (runPrims between t).ok = true →
    callFails u = false → UndisturbedUntil t (lineRead p u).1 →
    (lineRead p u).2 = some b

/-- R35, R36: let `m` be the levels with what the environment sets just before the call. A read reports what
its line holds in `m`, or some bit if no level is known, and leaves the levels at `m`; modes and phase stay,
and the environment's entry is used up (log 7). That a read reports what the environment has set on a line
the codec never wrote, where R23 and R35 speak of a draw, is the model's choice (log 27). -/
def Obligations.LineReadEffect : Prop :=
  ∀ (s : State) (p : Line) (m : PerLine Level), m = setLevels (callDisturbs s) s.levels →
    (callFails s = true → (lineRead p s).2 = none) ∧
    (callFails s = false → ∃ b, (lineRead p s).2 = some b ∧
      (m.get p = .unspecified ∨ m.get p = .holds b)) ∧
    (lineRead p s).1.levels = m ∧ (lineRead p s).1.modes = s.modes ∧
    (lineRead p s).1.phase = s.phase ∧ (lineRead p s).1.environment = s.environment.tail

/-! ### Apply commands -/

/-- R71: with no failure and no disturbance, `APPLY_GAIN` of a recognized setting leaves the gain lines
at the table row and every other line, the phase, the modes, the parameters and the inputs as they
were, and responds OK, 0. -/
def Obligations.ApplyGainEffect : Prop :=
  ∀ (s : State) (g : GainSetting), Operating gainPins s → Calm s →
    ∃ t, exec (.applyGain (.setting g)) s = .next t ∧ Holds gainPins (gainEnc g) t.levels ∧
      LevelsKeptOutside gainPins s t ∧ t.phase = s.phase ∧ SameSetup s t ∧
      t.response = some ⟨.ok, 0, none⟩

/-- R72: `APPLY_FILTER` in the same way. -/
def Obligations.ApplyFilterEffect : Prop :=
  ∀ (s : State) (f : FilterSetting), Operating filterPins s → Calm s →
    ∃ t, exec (.applyFilter (.setting f)) s = .next t ∧ Holds filterPins (filterEnc f) t.levels ∧
      LevelsKeptOutside filterPins s t ∧ t.phase = s.phase ∧ SameSetup s t ∧
      t.response = some ⟨.ok, 0, none⟩

/-- R61, R71, R72, R100: an unrecognized tag makes no call and changes nothing; the response warns. It
holds whatever the environment would do, since no primitive is called (R106). -/
def Obligations.UnrecognizedApplyWarns : Prop :=
  ∀ (s : State) (tag : Tag), s.phase ≠ .uninit →
    exec (.applyGain (.unrecognized tag)) s =
      .next { s with calls := [], response := some ⟨.warnUnrecognized, 0, none⟩ } ∧
    exec (.applyFilter (.unrecognized tag)) s =
      .next { s with calls := [], response := some ⟨.warnUnrecognized, 0, none⟩ }

/-- R70, R125: in every run of an apply, failing or not, the calls are a beginning of a clear phase and
then a set phase, each in some order, and all of both when it responds OK. -/
def Obligations.ApplyClearsThenSets : Prop :=
  (∀ (s t : State) (o : GainOperand), exec (.applyGain o) s = .next t →
    ∃ c d, ClearThenSet gainPins (gainPattern o) c d ∧ prims t <+: writePrims (c ++ d) ∧
      (status t = some .ok → prims t = writePrims (c ++ d))) ∧
  (∀ (s t : State) (o : FilterOperand), exec (.applyFilter o) s = .next t →
    ∃ c d, ClearThenSet filterPins (filterPattern o) c d ∧ prims t <+: writePrims (c ++ d) ∧
      (status t = some .ok → prims t = writePrims (c ++ d)))

/-- R71, R72, R73: the frame of the applies, whether they succeed, warn or fail: outside their own group
no undisturbed line changes, and phase, modes, parameters and inputs stay. -/
def Obligations.ApplyFrame : Prop :=
  (∀ (s t : State) (o : GainOperand), exec (.applyGain o) s = .next t →
    t.phase = s.phase ∧ SameSetup s t ∧ (UndisturbedUntil s t → LevelsKeptOutside gainPins s t)) ∧
  (∀ (s t : State) (o : FilterOperand), exec (.applyFilter o) s = .next t →
    t.phase = s.phase ∧ SameSetup s t ∧ (UndisturbedUntil s t → LevelsKeptOutside filterPins s t))

/-- R126: from a valid group and with no disturbance, the levels after each successful call of an apply
are valid, in every order of the writes and also in a run that fails. -/
def Obligations.ApplyTransientsValid : Prop :=
  (∀ (s t : State) (g : GainSetting), GainValid s.levels →
    exec (.applyGain (.setting g)) s = .next t → ∀ k, GainValid (replay (t.calls.take k) s.levels)) ∧
  (∀ (s t : State) (f : FilterSetting), FilterValid s.levels →
    exec (.applyFilter (.setting f)) s = .next t →
      ∀ k, FilterValid (replay (t.calls.take k) s.levels))

/-! ### Read commands -/

/-- R80: with no failure and no disturbance, `READ_GAIN` responds OK with the decode of what the gain
lines hold, a never-written line reporting some bit; it reads the three lines in order, and nothing but
the command's own outputs changes. That a line only the environment has set counts as known is the model's
choice (log 27). -/
def Obligations.ReadGainEffect : Prop :=
  ∀ s : State, Operating gainPins s → Calm s →
    ∃ t v, exec .readGain s = .next t ∧ Reads (gainLevels s) v ∧
      t.response = some ⟨.ok, gainTag (gainDec v), none⟩ ∧
      prims t = [.read .line2, .read .line4, .read .line6] ∧
      t.levels = s.levels ∧ t.phase = s.phase ∧ SameSetup s t

/-- R81: `READ_FILTER` in the same way, with the same choice of the model (log 27). -/
def Obligations.ReadFilterEffect : Prop :=
  ∀ s : State, Operating filterPins s → Calm s →
    ∃ t v, exec .readFilter s = .next t ∧ Reads (filterLevels s) v ∧
      t.response = some ⟨.ok, filterTag (filterDec v), none⟩ ∧
      prims t = [.read .line3, .read .line5, .read .line7, .read .line9] ∧
      t.levels = s.levels ∧ t.phase = s.phase ∧ SameSetup s t

/-- R80, R81: the frame of the reads, whether they succeed or fail: no undisturbed line changes, and
phase, modes, parameters and inputs stay. -/
def Obligations.ReadFrame : Prop :=
  ∀ (s t : State) (i : Instr), i = .readGain ∨ i = .readFilter → exec i s = .next t →
    t.phase = s.phase ∧ SameSetup s t ∧ (UndisturbedUntil s t → t.levels = s.levels)

/-- R20, R62, R83: a read of known levels answers a setting's tag only if the lines hold exactly that
setting's row, and answers the sentinel 0 exactly if they hold no row. That a level only the environment
has set counts as known is the model's choice (log 27). -/
def Obligations.ReadNeverCoerces : Prop :=
  (∀ (s t : State) (v : Pattern) (x : Tag), UndisturbedUntil s t → Holds gainPins v s.levels →
    exec .readGain s = .next t → t.response = some ⟨.ok, x, none⟩ →
      (x = 0 ↔ ∀ g, gainEnc g ≠ v) ∧ ∀ g, x = gainTag (some g) → gainEnc g = v) ∧
  (∀ (s t : State) (v : Pattern) (x : Tag), UndisturbedUntil s t → Holds filterPins v s.levels →
    exec .readFilter s = .next t → t.response = some ⟨.ok, x, none⟩ →
      (x = 0 ↔ ∀ f, filterEnc f ≠ v) ∧ ∀ f, x = filterTag (some f) → filterEnc f = v)

/-- R82: an apply that completes with OK, then any commands that write no line of the group (an apply of an
unrecognized tag among them), then a read: the read runs, and with no failure of it and no environment step from the apply to its end it
responds OK with the tag applied. -/
def Obligations.ApplyReadRoundTrip : Prop :=
  (∀ (s s1 s2 : State) (g : GainSetting) (is : List Instr),
    exec (.applyGain (.setting g)) s = .next s1 → status s1 = some .ok →
    (∀ i ∈ is, sparesGain i = true) → execAll is s1 = .next s2 →
    ∃ t, exec .readGain s2 = .next t ∧ (UndisturbedUntil s t → status t ≠ some .driverFailure →
      t.response = some ⟨.ok, gainTag (some g), none⟩)) ∧
  (∀ (s s1 s2 : State) (f : FilterSetting) (is : List Instr),
    exec (.applyFilter (.setting f)) s = .next s1 → status s1 = some .ok →
    (∀ i ∈ is, sparesFilter i = true) → execAll is s1 = .next s2 →
    ∃ t, exec .readFilter s2 = .next t ∧ (UndisturbedUntil s t → status t ≠ some .driverFailure →
      t.response = some ⟨.ok, filterTag (some f), none⟩))

/-- R80, R81: the response of a read does not depend on lines outside its group. -/
def Obligations.ReadSeesOwnGroupOnly : Prop :=
  (∀ (s t : State) (m : PerLine Level), (∀ p ∈ gainPins, m.get p = s.levels.get p) →
    exec .readGain s = .next t →
      ∃ u, exec .readGain { s with levels := m } = .next u ∧ u.response = t.response) ∧
  (∀ (s t : State) (m : PerLine Level), (∀ p ∈ filterPins, m.get p = s.levels.get p) →
    exec .readFilter s = .next t →
      ∃ u, exec .readFilter { s with levels := m } = .next u ∧ u.response = t.response)

/-! ### Control commands -/

/-- R90: with no failure and no disturbance, `DISABLE_ALL` writes 0 once to each of the ten lines and
nothing else, leaves all ten at 0 and the phase DISABLED, and responds OK, 0. -/
def Obligations.DisableAllEffect : Prop :=
  ∀ s : State, Operating allLines s → Calm s →
    ∃ t, exec .disableAll s = .next t ∧ (∀ p, t.levels.get p = .holds false) ∧
      t.phase = .disabled ∧ SameSetup s t ∧ t.response = some ⟨.ok, 0, none⟩ ∧
      (prims t).Perm (writePrims (clearWrites allLines))

/-- R90, R102: the frame of `DISABLE_ALL`: modes, parameters and inputs stay, and a run that ends in a
failure leaves the phase. -/
def Obligations.DisableAllFrame : Prop :=
  ∀ s t : State, exec .disableAll s = .next t →
    SameSetup s t ∧ (t.phase = .disabled ∨ t.phase = s.phase) ∧
      (status t = some .driverFailure → t.phase = s.phase)

/-- R24, R92: with the connection made, no failure and no disturbance, `INIT` leaves the phase READY,
every line an output, the control lines at (1, 0), each group at the row of its operand, or as it was
if the operand is unrecognized, and the tenth line as it was; it warns if an operand is unrecognized. -/
def Obligations.InitEffect : Prop :=
  ∀ (s : State) (tg : GainOperand) (tf : FilterOperand),
    s.phase = .uninit → s.params.connected = true → Calm s →
    ∃ t, exec (.init tg tf) s = .next t ∧ t.phase = .ready ∧ configured allLines t = true ∧
      t.levels.get .ctrlHigh = .holds true ∧ t.levels.get .ctrlLow = .holds false ∧
      (∀ g, tg = .setting g → Holds gainPins (gainEnc g) t.levels) ∧
      (∀ x, tg = .unrecognized x → ∀ p ∈ gainPins, t.levels.get p = s.levels.get p) ∧
      (∀ f, tf = .setting f → Holds filterPins (filterEnc f) t.levels) ∧
      (∀ x, tf = .unrecognized x → ∀ p ∈ filterPins, t.levels.get p = s.levels.get p) ∧
      t.levels.get .spare = s.levels.get .spare ∧ t.params = s.params ∧ t.inputs = s.inputs ∧
      ((∃ g, tg = .setting g) ∧ (∃ f, tf = .setting f) → t.response = some ⟨.ok, 0, none⟩) ∧
      ((∃ x, tg = .unrecognized x) ∨ (∃ x, tf = .unrecognized x) →
        t.response = some ⟨.warnUnrecognized, 0, none⟩)

/-- R92, R102: the frame of `INIT`, whether it succeeds, warns or fails: parameters and inputs stay,
the phase is READY or as it was, and where the environment disturbs nothing the tenth line and the
group of an unrecognized operand keep their levels. -/
def Obligations.InitFrame : Prop :=
  ∀ (s t : State) (tg : GainOperand) (tf : FilterOperand), exec (.init tg tf) s = .next t →
    t.params = s.params ∧ t.inputs = s.inputs ∧ (t.phase = .ready ∨ t.phase = s.phase) ∧
    (UndisturbedUntil s t → t.levels.get .spare = s.levels.get .spare ∧
      (∀ x, tg = .unrecognized x → ∀ p ∈ gainPins, t.levels.get p = s.levels.get p) ∧
      (∀ x, tf = .unrecognized x → ∀ p ∈ filterPins, t.levels.get p = s.levels.get p))

/-- R92: in every run of `INIT` the calls are a beginning of: ten mode settings in some order, the high
control line, the low one, the gain apply, the filter apply; and all of it unless the driver failed or
was not connected. -/
def Obligations.InitStepOrder : Prop :=
  ∀ (s t : State) (tg : GainOperand) (tf : FilterOperand), exec (.init tg tf) s = .next t →
    ∃ (ps : List Line) (c d c' d' : List (Line × Bool)), ps.Perm allLines ∧
      ClearThenSet gainPins (gainPattern tg) c d ∧
      ClearThenSet filterPins (filterPattern tf) c' d' ∧
      prims t <+: ps.map .setMode ++ [.write .ctrlHigh true, .write .ctrlLow false] ++
        writePrims (c ++ d) ++ writePrims (c' ++ d') ∧
      (status t ≠ some .driverFailure →
        prims t = ps.map .setMode ++ [.write .ctrlHigh true, .write .ctrlLow false] ++
          writePrims (c ++ d) ++ writePrims (c' ++ d'))

/-- R93: in every run of `INIT` both control lines were written, with success, before any call that
writes a gain or filter line. -/
def Obligations.InitControlLinesFirst : Prop :=
  ∀ (s t : State) (tg : GainOperand) (tf : FilterOperand), exec (.init tg tf) s = .next t →
    ∀ (pre post : List Call) (c : Call) (p : Line) (b : Bool), t.calls = pre ++ c :: post →
      c.prim = .write p b → p ∈ gainPins ++ filterPins →
        ⟨.write .ctrlHigh true, .done⟩ ∈ pre ∧ ⟨.write .ctrlLow false, .done⟩ ∈ pre

/-- R92 and D29: if the connection failed, `INIT` makes no call, changes nothing and responds
DRIVER_FAILURE, 0. -/
def Obligations.InitNotConnected : Prop :=
  ∀ (s : State) (tg : GainOperand) (tf : FilterOperand),
    s.phase = .uninit → s.params.connected = false →
    exec (.init tg tf) s = .next { s with calls := [], response := some ⟨.driverFailure, 0, none⟩ }

/-- R94: the word 0x600 is `IDN`, which responds OK, 0 with the constant record, without a serial number,
in every phase, makes no call and changes nothing else. -/
def Obligations.IdnEffect : Prop :=
  decode 0x600 = .ok .idn ∧
  ∀ s : State, exec .idn s = .next { s with
    calls := [],
    response := some ⟨.ok, 0, some ⟨Config.idnVendor, Config.idnModel, none, Config.idnFirmware⟩⟩ }

/-- R96: the admission table. That the lines are outputs outside UNINIT is the premise of the second
part; it is the invariant `OutputsConfigured`, stated on its own. -/
def Obligations.AdmissionByPhase : Prop :=
  (∀ s : State, s.phase = .uninit →
    (∀ o, exec (.applyGain o) s = .refused .notInitialized) ∧
    (∀ o, exec (.applyFilter o) s = .refused .notInitialized) ∧
    exec .readGain s = .refused .notInitialized ∧ exec .readFilter s = .refused .notInitialized ∧
    exec .disableAll s = .refused .notInitialized ∧
    ∀ tg tf, ∃ t, exec (.init tg tf) s = .next t ∧
      (status t = some .ok ∨ status t = some .warnUnrecognized → t.phase = .ready)) ∧
  (∀ s : State, s.phase ≠ .uninit → OutputsConfigured s →
    (∀ tg tf, exec (.init tg tf) s = .refused .alreadyInitialized) ∧
    (∀ o, ∃ t, exec (.applyGain o) s = .next t ∧ t.phase = s.phase) ∧
    (∀ o, ∃ t, exec (.applyFilter o) s = .next t ∧ t.phase = s.phase) ∧
    (∃ t, exec .readGain s = .next t ∧ t.phase = s.phase) ∧
    (∃ t, exec .readFilter s = .next t ∧ t.phase = s.phase) ∧
    ∃ t, exec .disableAll s = .next t ∧ (status t = some .ok → t.phase = .disabled)) ∧
  (∀ s : State, ∃ t, exec .idn s = .next t ∧ t.phase = s.phase) ∧
  (∀ (s : State) (w : CommandWord) (rest : List Input), (∀ i, decode w ≠ .ok i) →
    s.inputs = .command w :: rest → step s = .refused .illegalCommand)

/-- 20_memory.md R44: outside UNINIT, a command that would use a line that is not an output is refused.
That the test comes before the command's first call is the model's choice (log 13). -/
def Obligations.UnconfiguredLinesRefused : Prop :=
  ∀ s : State, s.phase ≠ .uninit →
    (configured gainPins s = false →
      (∀ g, exec (.applyGain (.setting g)) s = .refused .lineNotConfigured) ∧
      exec .readGain s = .refused .lineNotConfigured) ∧
    (configured filterPins s = false →
      (∀ f, exec (.applyFilter (.setting f)) s = .refused .lineNotConfigured) ∧
      exec .readFilter s = .refused .lineNotConfigured) ∧
    (configured allLines s = false → exec .disableAll s = .refused .lineNotConfigured)

/-! ### Conditions, over all commands -/

/-- R102, R107: a command that responds DRIVER_FAILURE has `val = 0`, leaves the phase, and made a
failing call after successful ones and none after it, unless it is an `INIT` whose connection failed; a
command that responds anything else made no failing call. -/
def Obligations.DriverFailureEndsCommand : Prop :=
  ∀ (i : Instr) (s t : State) (r : Response), exec i s = .next t → t.response = some r →
    (r.status = .driverFailure → r.val = 0 ∧ t.phase = s.phase ∧
      ((∃ pre c, t.calls = pre ++ [c] ∧ c.result = .failed ∧ ∀ d ∈ pre, d.result ≠ .failed) ∨
        (t.calls = [] ∧ s.params.connected = false ∧ ∃ tg tf, i = .init tg tf))) ∧
    (r.status ≠ .driverFailure → ∀ c ∈ t.calls, c.result ≠ .failed)

/-- R102: a call fails exactly when `DRIVER_MAY_FAIL` holds and the environment makes it fail: of the
calls a command makes, the `k`-th fails if and only if the environment's `k`-th entry says so. -/
def Obligations.CallsFailAsTheEnvironmentChooses : Prop :=
  ∀ (i : Instr) (s t : State), exec i s = .next t → ∀ (k : Nat) (c : Call), t.calls[k]? = some c →
    (c.result = .failed ↔ s.params.driverMayFail = true ∧
      ∃ e, s.environment[k]? = some e ∧ e.fails = true)

/-- R102: where no call can fail and the connection is made, no command responds DRIVER_FAILURE. -/
def Obligations.NoDriverFailureWithoutCause : Prop :=
  ∀ (i : Instr) (s t : State), NoFailure s → s.params.connected = true → exec i s = .next t →
    status t ≠ some .driverFailure

/-- 42_control.md R95: the calls a command makes, its phase, its modes and its status do not depend on
the levels of the lines. -/
def Obligations.CallsIndependentOfLevels : Prop :=
  ∀ (i : Instr) (s t : State) (m : PerLine Level), exec i s = .next t →
    ∃ u, exec i { s with levels := m } = .next u ∧ prims u = prims t ∧ u.phase = t.phase ∧
      u.modes = t.modes ∧ status u = status t

/-- 20_memory.md R30, R36, R37; 60_exceptions.md R102: where the environment disturbs nothing, every line
after a command holds what the command's successful writes make of the levels before, so that after a
failure too the writes already made stand and no others were; only the line of a failed write may differ.
A command that did not fail leaves all the levels so. -/
def Obligations.LevelsChangeByWritesOnly : Prop :=
  ∀ (i : Instr) (s t : State), UndisturbedUntil s t → exec i s = .next t →
    (∀ p, (∀ b, ⟨.write p b, .failed⟩ ∉ t.calls) → t.levels.get p = (replay t.calls s.levels).get p) ∧
    (status t ≠ some .driverFailure → t.levels = replay t.calls s.levels)

/-! ### The machine -/

/-- 10_state.md R21 to R23: after reset the phase is UNINIT, no mode is other than UNCONFIGURED, which is
how the spec says a model treats the unspecified modes, and no line has a known level. -/
def Obligations.ResetValues : Prop :=
  State.reset.phase = .uninit ∧ (∀ p, State.reset.modes.get p = .unconfigured) ∧
  (∀ p, State.reset.levels.get p = .unspecified)

/-- 10_state.md R13: when the oldest input is a word that decodes to a command, a step runs exactly that
command from the state without the word. The list of inputs is the model's form of the single command
stream (log 1). -/
def Obligations.StepRunsDecoded : Prop :=
  ∀ (s : State) (w : CommandWord) (rest : List Input) (i : Instr),
    s.inputs = .command w :: rest → decode w = .ok i → step s = exec i { s with inputs := rest }

/-- A word placed by the interface runs ahead of every waiting input: the next step is the command it
decodes to. That is the convention of the model's interface (log 1, log 17) and no rule of the spec, which
says only that commands run in the order the host issues them (10_state.md R13). -/
def Obligations.FetchWordRuns : Prop :=
  ∀ (s : State) (nbits w : Nat) (i : Instr), decodeTableWord nbits w = some i →
    step (s.withFetchWord nbits w) = exec i s

/-- 20_memory.md R36: a step of the environment sets one level and nothing else, where
`EXTERNAL_DISTURBANCE` holds. Where it does not hold, R36 says that there is no such step; that the entry is
then taken off the list without effect is the model's choice (log 18), as are the list itself (log 1) and that
a line the codec never wrote holds the bit set (log 27). -/
def Obligations.EnvironmentStep : Prop :=
  ∀ (s : State) (p : Line) (b : Bool) (rest : List Input), s.inputs = .disturb p b :: rest →
    (s.params.externalDisturbance = true →
      step s = .next { s with inputs := rest, levels := s.levels.set p (.holds b) }) ∧
    (s.params.externalDisturbance = false → step s = .next { s with inputs := rest })

/-- 10_state.md R11: the phase changes only by a successful `INIT`, from UNINIT to READY, and by
`DISABLE_ALL`, from READY or DISABLED to DISABLED. -/
def Obligations.PhaseTransitions : Prop :=
  ∀ s s' : State, step s = .next s' → s'.phase = s.phase ∨
    (s.phase = .uninit ∧ s'.phase = .ready ∧ ∃ w tg tf, s.inputs.head? = some (.command w) ∧
      decode w = .ok (.init tg tf) ∧ status s' ≠ some .driverFailure) ∨
    (s.phase ≠ .uninit ∧ s'.phase = .disabled ∧ ∃ w, s.inputs.head? = some (.command w) ∧
      decode w = .ok .disableAll ∧ status s' = some .ok)

/-- 10_state.md R11, 42_control.md R91: a command in DISABLED does all that it does in READY; only the
phase it leaves may differ, which `DISABLE_ALL` leaves DISABLED in both when it succeeds. -/
def Obligations.DisabledBehavesAsReady : Prop :=
  ∀ (i : Instr) (s : State), s.phase = .disabled →
    (∀ t, exec i s = .next t →
      (i = .disableAll ∧ status t = some .ok → exec i { s with phase := .ready } = .next t) ∧
      (¬ (i = .disableAll ∧ status t = some .ok) →
        t.phase = .disabled ∧ exec i { s with phase := .ready } = .next { t with phase := .ready })) ∧
    (∀ r, exec i s = .refused r → exec i { s with phase := .ready } = .refused r)

/-- 10_state.md R15: no step takes a line back from OUTPUT. That no step changes the parameters, `connected`
among them, is the model's choice (log 6) and no rule of the spec. -/
def Obligations.SetupNeverUndone : Prop :=
  ∀ s s' : State, step s = .next s' → s'.params = s.params ∧
    ∀ p, s.modes.get p = .output → s'.modes.get p = .output

/-- 10_state.md R24, 20_memory.md R44: every step keeps the invariant that outside UNINIT all ten lines
are outputs, with failures and disturbances of any kind. -/
def Obligations.OutputsConfiguredKept : Prop :=
  ∀ s s' : State, OutputsConfigured s → step s = .next s' → OutputsConfigured s'

/-- The invariant holds after reset. -/
def Obligations.OutputsConfiguredAtReset : Prop := OutputsConfigured State.reset

/-- 10_state.md R19, 42_control.md R91, 70_reset_and_hazards.md R130: every step keeps the control lines
at (1, 0) in READY and at (0, 0), with the tenth line at 0, in DISABLED, where neither failures nor
disturbances can happen. -/
def Obligations.ControlLinesKept : Prop :=
  ∀ s s' : State, ControlLinesHeld s → step s = .next s' → ControlLinesHeld s'

/-- The invariant holds after reset. -/
def Obligations.ControlLinesAtReset : Prop := ControlLinesHeld State.reset

/-- 10_state.md R20, R62 of 30_encoding.md: every step keeps each setting group either never written or
at a row of its table, where neither failures nor disturbances can happen. -/
def Obligations.SettingLinesKept : Prop :=
  ∀ s s' : State, SettingLinesValid s → step s = .next s' → SettingLinesValid s'

/-- The invariant holds after reset. -/
def Obligations.SettingLinesAtReset : Prop := SettingLinesValid State.reset

/-! ### What stands after any run of a command, and what the environment does inside it -/

/-- 20_memory.md R36, R37, R42; 60_exceptions.md R102: after every run of a command, failing or not and
disturbed or not, a line holds what the environment's moves and the successful writes make of the levels
before, each in its turn: before every call the levels that the call's entry of the environment sets (log 7),
then the call. Only the line of a failed write may differ. That this holds of lines the codec never wrote
too is the model's choice (log 27). -/
def Obligations.LevelsFollowMovesAndWrites : Prop :=
  ∀ (i : Instr) (s t : State), exec i s = .next t →
    ∀ p, (∀ b, ⟨.write p b, .failed⟩ ∉ t.calls) → t.levels.get p = (levelsAfter s t.calls).get p

/-- 20_memory.md R35, R36: a read call, in the middle of whatever command and disturbances, reports the level
that its line holds when the environment has moved and the call is made, or some bit if none is known. That it
reports what the environment has set on a line the codec never wrote, where R23 and R35 speak of a draw, is
the model's choice (log 27); the form of the environment is log 7. -/
def Obligations.ReadCallsReportLevels : Prop :=
  ∀ (i : Instr) (s t : State) (k : Nat) (p : Line) (b : Bool) (m : PerLine Level),
    exec i s = .next t → t.calls[k]? = some ⟨.read p, .value b⟩ →
    m = setLevels (movesOf s.params.externalDisturbance (s.environment.drop k))
      (levelsAfter s (t.calls.take k)) →
    m.get p = .unspecified ∨ m.get p = .holds b

/-- R80, R81: a read command that responds OK responds with the decode of the bits its calls reported, one
for each line of its group in element order. -/
def Obligations.ReadDecodesItsCalls : Prop :=
  (∀ s t : State, exec .readGain s = .next t → status t = some .ok →
    ∃ a b c, t.calls = [⟨.read .line2, .value a⟩, ⟨.read .line4, .value b⟩, ⟨.read .line6, .value c⟩] ∧
      t.response = some ⟨.ok, gainTag (gainDec [a, b, c]), none⟩) ∧
  (∀ s t : State, exec .readFilter s = .next t → status t = some .ok →
    ∃ a b c d, t.calls = [⟨.read .line3, .value a⟩, ⟨.read .line5, .value b⟩, ⟨.read .line7, .value c⟩,
        ⟨.read .line9, .value d⟩] ∧
      t.response = some ⟨.ok, filterTag (filterDec [a, b, c, d]), none⟩)

/-- 10_state.md R15; 60_exceptions.md R102: after every run of a command, failing or not, a line whose mode
setting was done is an output, and a line for which none was called has the mode it had. -/
def Obligations.ModesFollowSettings : Prop :=
  ∀ (i : Instr) (s t : State), exec i s = .next t → ∀ p,
    (⟨.setMode p, .done⟩ ∈ t.calls → t.modes.get p = .output) ∧
    ((∀ r, ⟨.setMode p, r⟩ ∉ t.calls) → t.modes.get p = s.modes.get p)

/-- 20_memory.md R30, R34, R36: a line holds what was last set on it, and a move of the environment sets the
lines of its list one after the other and no other line. That this holds of lines the codec never wrote
too is the model's choice (log 27). -/
def Obligations.LineSpaceLaws : Prop :=
  (∀ (m : PerLine Level) (p q : Line) (l : Level), (m.set p l).get q = if q = p then l else m.get q) ∧
  (∀ m : PerLine Level, setLevels [] m = m) ∧
  ∀ (ws : List (Line × Bool)) (p q : Line) (b : Bool) (m : PerLine Level),
    (setLevels (ws ++ [(p, b)]) m).get q = if q = p then .holds b else (setLevels ws m).get q
end

