-- ==== Sys2Proof/Laws/State.lean ====
section
/-! SUPPORT. What each named update of the state does to each field, and the laws of the ten lines. -/

namespace Sys2Proof.Machine

theorem PerLine.get_set {α : Type} (m : PerLine α) (p q : Line) (a : α) :
    (m.set p a).get q = if q = p then a else m.get q := by
  cases p <;> cases q <;> rfl

@[simp] theorem PerLine.get_set_same {α : Type} (m : PerLine α) (p : Line) (a : α) :
    (m.set p a).get p = a := by simp [PerLine.get_set]

theorem PerLine.get_set_other {α : Type} (m : PerLine α) {p q : Line} (a : α) (h : q ≠ p) :
    (m.set p a).get q = m.get q := by simp [PerLine.get_set, h]

@[simp] theorem PerLine.get_const {α : Type} (a : α) (p : Line) : (PerLine.const a).get p = a := by
  cases p <;> rfl

/-- Two tables of lines that agree on every line are equal. -/
theorem PerLine.eq_of_get {α : Type} {m n : PerLine α} (h : ∀ p, m.get p = n.get p) : m = n := by
  cases m; cases n
  have h2 := h .line2; have h3 := h .line3; have h4 := h .line4; have h5 := h .line5
  have h6 := h .line6; have h7 := h .line7; have h9 := h .line9; have hh := h .ctrlHigh
  have hl := h .ctrlLow; have hs := h .spare
  simp only [PerLine.get] at *
  subst h2 h3 h4 h5 h6 h7 h9 hh hl hs
  rfl

section updates
variable (s : State) (c : Call) (n : Nat) (p : Line) (l : Level) (m : Mode) (ph : Phase)
  (st : Status) (v : Tag)

@[simp] theorem beginCall_phase : (beginCall s).phase = s.phase := rfl
@[simp] theorem beginCall_modes : (beginCall s).modes = s.modes := rfl
@[simp] theorem beginCall_levels : (beginCall s).levels = setLevels (callDisturbs s) s.levels := rfl
@[simp] theorem beginCall_params : (beginCall s).params = s.params := rfl
@[simp] theorem beginCall_response : (beginCall s).response = s.response := rfl
@[simp] theorem beginCall_calls : (beginCall s).calls = s.calls := rfl
@[simp] theorem beginCall_inputs : (beginCall s).inputs = s.inputs := rfl
@[simp] theorem beginCall_environment : (beginCall s).environment = s.environment.tail := rfl
@[simp] theorem beginCall_draws : (beginCall s).draws = s.draws := rfl

@[simp] theorem spend_phase : (spend n s).phase = s.phase := rfl
@[simp] theorem spend_modes : (spend n s).modes = s.modes := rfl
@[simp] theorem spend_levels : (spend n s).levels = s.levels := rfl
@[simp] theorem spend_params : (spend n s).params = s.params := rfl
@[simp] theorem spend_response : (spend n s).response = s.response := rfl
@[simp] theorem spend_calls : (spend n s).calls = s.calls := rfl
@[simp] theorem spend_inputs : (spend n s).inputs = s.inputs := rfl
@[simp] theorem spend_environment : (spend n s).environment = s.environment := rfl
@[simp] theorem spend_draws : (spend n s).draws = s.draws + n := rfl

@[simp] theorem recordCall_phase : (recordCall c s).phase = s.phase := rfl
@[simp] theorem recordCall_modes : (recordCall c s).modes = s.modes := rfl
@[simp] theorem recordCall_levels : (recordCall c s).levels = s.levels := rfl
@[simp] theorem recordCall_params : (recordCall c s).params = s.params := rfl
@[simp] theorem recordCall_response : (recordCall c s).response = s.response := rfl
@[simp] theorem recordCall_calls : (recordCall c s).calls = s.calls ++ [c] := rfl
@[simp] theorem recordCall_inputs : (recordCall c s).inputs = s.inputs := rfl
@[simp] theorem recordCall_environment : (recordCall c s).environment = s.environment := rfl
@[simp] theorem recordCall_draws : (recordCall c s).draws = s.draws := rfl

@[simp] theorem putLevel_phase : (putLevel p l s).phase = s.phase := rfl
@[simp] theorem putLevel_modes : (putLevel p l s).modes = s.modes := rfl
@[simp] theorem putLevel_levels : (putLevel p l s).levels = s.levels.set p l := rfl
@[simp] theorem putLevel_params : (putLevel p l s).params = s.params := rfl
@[simp] theorem putLevel_response : (putLevel p l s).response = s.response := rfl
@[simp] theorem putLevel_calls : (putLevel p l s).calls = s.calls := rfl
@[simp] theorem putLevel_inputs : (putLevel p l s).inputs = s.inputs := rfl
@[simp] theorem putLevel_environment : (putLevel p l s).environment = s.environment := rfl
@[simp] theorem putLevel_draws : (putLevel p l s).draws = s.draws := rfl

@[simp] theorem putMode_phase : (putMode p m s).phase = s.phase := rfl
@[simp] theorem putMode_modes : (putMode p m s).modes = s.modes.set p m := rfl
@[simp] theorem putMode_levels : (putMode p m s).levels = s.levels := rfl
@[simp] theorem putMode_params : (putMode p m s).params = s.params := rfl
@[simp] theorem putMode_response : (putMode p m s).response = s.response := rfl
@[simp] theorem putMode_calls : (putMode p m s).calls = s.calls := rfl
@[simp] theorem putMode_inputs : (putMode p m s).inputs = s.inputs := rfl
@[simp] theorem putMode_environment : (putMode p m s).environment = s.environment := rfl
@[simp] theorem putMode_draws : (putMode p m s).draws = s.draws := rfl

@[simp] theorem putPhase_phase : (putPhase ph s).phase = ph := rfl
@[simp] theorem putPhase_modes : (putPhase ph s).modes = s.modes := rfl
@[simp] theorem putPhase_levels : (putPhase ph s).levels = s.levels := rfl
@[simp] theorem putPhase_params : (putPhase ph s).params = s.params := rfl
@[simp] theorem putPhase_response : (putPhase ph s).response = s.response := rfl
@[simp] theorem putPhase_calls : (putPhase ph s).calls = s.calls := rfl
@[simp] theorem putPhase_inputs : (putPhase ph s).inputs = s.inputs := rfl
@[simp] theorem putPhase_environment : (putPhase ph s).environment = s.environment := rfl
@[simp] theorem putPhase_draws : (putPhase ph s).draws = s.draws := rfl

@[simp] theorem startCommand_phase : (startCommand s).phase = s.phase := rfl
@[simp] theorem startCommand_modes : (startCommand s).modes = s.modes := rfl
@[simp] theorem startCommand_levels : (startCommand s).levels = s.levels := rfl
@[simp] theorem startCommand_params : (startCommand s).params = s.params := rfl
@[simp] theorem startCommand_response : (startCommand s).response = s.response := rfl
@[simp] theorem startCommand_calls : (startCommand s).calls = [] := rfl
@[simp] theorem startCommand_inputs : (startCommand s).inputs = s.inputs := rfl
@[simp] theorem startCommand_environment : (startCommand s).environment = s.environment := rfl
@[simp] theorem startCommand_draws : (startCommand s).draws = s.draws := rfl

@[simp] theorem respond_phase : (respond st v s).phase = s.phase := rfl
@[simp] theorem respond_modes : (respond st v s).modes = s.modes := rfl
@[simp] theorem respond_levels : (respond st v s).levels = s.levels := rfl
@[simp] theorem respond_params : (respond st v s).params = s.params := rfl
@[simp] theorem respond_response : (respond st v s).response = some ⟨st, v, none⟩ := rfl
@[simp] theorem respond_calls : (respond st v s).calls = s.calls := rfl
@[simp] theorem respond_inputs : (respond st v s).inputs = s.inputs := rfl
@[simp] theorem respond_environment : (respond st v s).environment = s.environment := rfl
@[simp] theorem respond_draws : (respond st v s).draws = s.draws := rfl

@[simp] theorem dropInput_phase : (dropInput s).phase = s.phase := rfl
@[simp] theorem dropInput_modes : (dropInput s).modes = s.modes := rfl
@[simp] theorem dropInput_levels : (dropInput s).levels = s.levels := rfl
@[simp] theorem dropInput_params : (dropInput s).params = s.params := rfl
@[simp] theorem dropInput_response : (dropInput s).response = s.response := rfl
@[simp] theorem dropInput_calls : (dropInput s).calls = s.calls := rfl
@[simp] theorem dropInput_inputs : (dropInput s).inputs = s.inputs.tail := rfl
@[simp] theorem dropInput_environment : (dropInput s).environment = s.environment := rfl
@[simp] theorem dropInput_draws : (dropInput s).draws = s.draws := rfl

end updates

end Sys2Proof.Machine
end

