-- ==== Sys2Proof/Laws/Ops.lean ====
section
/-! SUPPORT. What the shared operations can do, once each: `Attempts` says it of any sequence of
primitive calls, the `_calm` equations say it where nothing fails and nothing is disturbed. -/

namespace Sys2Proof.Machine

/-! ### Levels, modes, orders -/

theorem setLevels_get_of_not_mem {ws : List (Line × Bool)} {p : Line} (h : p ∉ ws.map Prod.fst)
    (m : PerLine Level) : (setLevels ws m).get p = m.get p := by
  induction ws generalizing m with
  | nil => rfl
  | cons w ws ih =>
    simp only [List.map_cons, List.mem_cons, not_or] at h
    rw [setLevels, ih h.2, PerLine.get_set_other _ _ h.1]

/-- Writing the same bit to some lines, in whatever order. -/
theorem setLevels_get_of_const {ws : List (Line × Bool)} {b : Bool} (h : ∀ w ∈ ws, w.2 = b)
    (m : PerLine Level) (p : Line) :
    (setLevels ws m).get p = if p ∈ ws.map Prod.fst then .holds b else m.get p := by
  induction ws generalizing m with
  | nil => rfl
  | cons w ws ih =>
    rw [setLevels, ih (fun x hx => h x (List.mem_cons_of_mem _ hx)), PerLine.get_set,
      h w List.mem_cons_self]
    by_cases h1 : p = w.1 <;> by_cases h2 : p ∈ ws.map Prod.fst <;> simp [h1, h2]

theorem setOutputs_get (ps : List Line) (m : PerLine Mode) (p : Line) :
    (setOutputs ps m).get p = if p ∈ ps then .output else m.get p := by
  induction ps generalizing m with
  | nil => rfl
  | cons q ps ih =>
    rw [setOutputs, ih, PerLine.get_set]
    by_cases h1 : p = q <;> by_cases h2 : p ∈ ps <;> simp [h1, h2]

/-- A free order holds the same elements. -/
theorem arrange_perm {α : Type} (n : Nat) (xs : List α) : (arrange n xs).Perm xs := by
  induction xs generalizing n with
  | nil => exact .refl _
  | cons x xs ih =>
    have hlen : (arrange (n + 1) xs).length = xs.length := (ih _).length_eq
    have hle : Config.freePick n % (xs.length + 1) ≤ (arrange (n + 1) xs).length := by
      rw [hlen]; exact Nat.lt_succ_iff.mp (Nat.mod_lt _ (Nat.succ_pos _))
    exact (List.perm_insertIdx _ _ hle).trans ((ih _).cons _)

theorem configured_iff {pins : List Line} {s : State} :
    configured pins s = true ↔ ∀ p ∈ pins, s.modes.get p = .output := by
  simp [configured]

theorem mem_allLines (p : Line) : p ∈ allLines := by cases p <;> decide

theorem configured_of_allLines {pins : List Line} {s : State} (h : configured allLines s = true) :
    configured pins s = true :=
  configured_iff.2 fun p _ => configured_iff.1 h p (mem_allLines p)

theorem configured_congr {pins : List Line} {s t : State} (h : t.modes = s.modes) :
    configured pins t = configured pins s := by simp [configured, h]

/-! ### What the environment does -/

/-- `t` comes later than `s` on the same bench. -/
def Later (s t : State) : Prop := t.params = s.params ∧ ∃ n, t.environment = s.environment.drop n

theorem Later.refl (s : State) : Later s s := ⟨rfl, 0, rfl⟩

theorem Later.trans {s t u : State} (h : Later s t) (k : Later t u) : Later s u := by
  obtain ⟨hp, n, hn⟩ := h
  obtain ⟨kp, m, km⟩ := k
  exact ⟨kp.trans hp, n + m, by rw [km, hn, List.drop_drop]⟩

theorem NoFailure.later {s t : State} (h : NoFailure s) (k : Later s t) : NoFailure t := by
  obtain ⟨kp, n, kn⟩ := k
  rcases h with h | h
  · exact .inl (by rw [kp]; exact h)
  · exact .inr fun e he => h e (List.mem_of_mem_drop (kn ▸ he))

theorem Undisturbed.later {s t : State} (h : Undisturbed s) (k : Later s t) : Undisturbed t := by
  obtain ⟨kp, n, kn⟩ := k
  rcases h with h | h
  · exact .inl (by rw [kp]; exact h)
  · exact .inr fun e he => h e (List.mem_of_mem_drop (kn ▸ he))

theorem Undisturbed.until {s t : State} (h : Undisturbed s) : UndisturbedUntil s t :=
  h.imp_right fun h e he => h e (List.mem_of_mem_take he)

theorem UndisturbedUntil.take {s t : State} {n : Nat} (h : UndisturbedUntil s t)
    (k : t.environment = s.environment.drop n) :
    s.params.externalDisturbance = false ∨ ∀ e ∈ s.environment.take n, e.disturb = [] := by
  refine h.imp_right fun h e he => h e ?_
  rw [k, List.length_drop]
  rcases Nat.le_total n s.environment.length with hn | hn
  · rwa [Nat.sub_sub_self hn]
  · rw [Nat.sub_eq_zero_of_le hn, Nat.sub_zero, List.take_length]
    exact List.mem_of_mem_take he

theorem UndisturbedUntil.of_take {s t : State} {n : Nat} (k : t.environment = s.environment.drop n)
    (h : s.params.externalDisturbance = false ∨ ∀ e ∈ s.environment.take n, e.disturb = []) :
    UndisturbedUntil s t := by
  refine h.imp_right fun h e he => h e ?_
  rw [k, List.length_drop] at he
  exact (List.take_subset_take_left _ (by omega)) he

theorem UndisturbedUntil.before {s t u : State} (h : UndisturbedUntil s u) (k : Later s t)
    (l : Later t u) : UndisturbedUntil s t := by
  obtain ⟨-, n, hn⟩ := k
  obtain ⟨-, m, hm⟩ := l
  exact .of_take hn ((h.take (n := n + m) (by rw [hm, hn, List.drop_drop])).imp_right fun h e he =>
    h e (List.take_subset_take_left _ (Nat.le_add_right n m) he))

theorem UndisturbedUntil.after {s t u : State} (h : UndisturbedUntil s u) (k : Later s t)
    (l : Later t u) : UndisturbedUntil t u := by
  obtain ⟨hp, n, hn⟩ := k
  obtain ⟨-, m, hm⟩ := l
  refine .of_take hm ?_
  rw [hp, hn]
  refine (h.take (n := n + m) (by rw [hm, hn, List.drop_drop])).imp_right fun h e he => h e ?_
  rw [List.take_drop] at he
  exact List.mem_of_mem_drop he

theorem UndisturbedUntil.callDisturbs {s t : State} (h : UndisturbedUntil s t)
    (k : t.environment = s.environment.tail) : callDisturbs s = [] := by
  rcases h.take (n := 1) (by rw [k, List.drop_one]) with h | h
  · simp [Machine.callDisturbs, h]
  · unfold Machine.callDisturbs nextCallEnv
    cases he : s.environment with
    | nil => simp [CallEnv.quiet]
    | cons e es => simp [h e (by simp [he])]

theorem Calm.later {s t : State} (h : Calm s) (k : Later s t) : Calm t :=
  ⟨h.1.later k, h.2.later k⟩

theorem QuietBench.calm {s : State} (h : QuietBench s) : Calm s := ⟨.inl h.1, .inl h.2⟩

theorem nextCallEnv_mem {s : State} (h : s.environment ≠ []) : nextCallEnv s ∈ s.environment := by
  unfold nextCallEnv
  cases hs : s.environment with
  | nil => exact absurd hs h
  | cons e es => simp

theorem NoFailure.callFails {s : State} (h : NoFailure s) : callFails s = false := by
  rcases h with h | h
  · simp [Machine.callFails, h]
  · by_cases he : s.environment = []
    · simp [Machine.callFails, nextCallEnv, he, CallEnv.quiet]
    · simp [Machine.callFails, h _ (nextCallEnv_mem he)]

theorem Undisturbed.callDisturbs {s : State} (h : Undisturbed s) : callDisturbs s = [] := by
  rcases h with h | h
  · simp [Machine.callDisturbs, h]
  · by_cases he : s.environment = []
    · simp [Machine.callDisturbs, nextCallEnv, he, CallEnv.quiet]
    · simp [Machine.callDisturbs, h _ (nextCallEnv_mem he)]

theorem callFails_iff {s : State} : callFails s = true ↔
    s.params.driverMayFail = true ∧ ∃ e, s.environment[0]? = some e ∧ e.fails = true := by
  unfold callFails nextCallEnv
  cases s.environment <;> simp [CallEnv.quiet]

/-! ### Any sequence of primitive calls -/

/-- What the calls `done`, made on the way from `s` to `t` in trying `ps`, have done; `ok` says that none
failed. -/
structure Made (ps : List Prim) (s t : State) (ok : Bool) (done : List Call) : Prop where
  calls : t.calls = s.calls ++ done
  environment : t.environment = s.environment.drop done.length
  begins : done.map Call.prim <+: ps
  complete : ok = true → done.map Call.prim = ps ∧ ∀ c ∈ done, c.result ≠ .failed
  broken : ok = false → ∃ (pre : List Call) (c : Call), done = pre ++ [c] ∧ c.result = .failed ∧
    ∀ d ∈ pre, d.result ≠ .failed
  fails : ∀ (k : Nat) (c : Call), done[k]? = some c → (c.result = .failed ↔
    s.params.driverMayFail = true ∧ ∃ e : CallEnv, s.environment[k]? = some e ∧ e.fails = true)
  levels : ∀ p, (∀ b, ⟨.write p b, .failed⟩ ∉ done) → t.levels.get p = (levelsAfter s done).get p
  results : ∀ c ∈ done, c.result = .failed ∨ c.result = .done ∨ ∃ p, c.prim = .read p
  reads : ∀ (k : Nat) (p : Line) (b : Bool), done[k]? = some ⟨.read p, .value b⟩ →
    (setLevels (movesOf s.params.externalDisturbance (s.environment.drop k))
      (levelsAfter s (done.take k))).get p ∈ [Level.unspecified, .holds b]
  modes : ∀ p, (⟨.setMode p, .done⟩ ∈ done → t.modes.get p = .output) ∧
    ((∀ r, ⟨.setMode p, r⟩ ∉ done) → t.modes.get p = s.modes.get p)

/-- Everything a sequence of primitive calls can do: `t` and `ok` are what comes of trying `ps` from
`s`. -/
structure Attempts (ps : List Prim) (s t : State) (ok : Bool) : Prop where
  phase : t.phase = s.phase
  params : t.params = s.params
  inputs : t.inputs = s.inputs
  response : t.response = s.response
  calls : ∃ done : List Call, Made ps s t ok done
  levels : UndisturbedUntil s t → ∀ p, (∀ b, Prim.write p b ∉ ps) → t.levels.get p = s.levels.get p
  modes : ∀ p, s.modes.get p = .output → t.modes.get p = .output
  modesKept : (∀ p, Prim.setMode p ∉ ps) → t.modes = s.modes
  modesSet : ok = true → ∀ p, Prim.setMode p ∈ ps → t.modes.get p = .output

theorem replay_append (xs ys : List Call) (m : PerLine Level) :
    replay (xs ++ ys) m = replay ys (replay xs m) := by
  induction xs generalizing m with
  | nil => rfl
  | cons c cs ih => obtain ⟨q, r⟩ := c; cases q <;> cases r <;> simp [replay, ih]

theorem replayMoves_append (ext : Bool) (es : List CallEnv) (xs ys : List Call) (m : PerLine Level) :
    replayMoves ext es (xs ++ ys) m =
      replayMoves ext (es.drop xs.length) ys (replayMoves ext es xs m) := by
  induction xs generalizing es m with
  | nil => rfl
  | cons c cs ih => simp [replayMoves, ih]

/-- Where the environment sets no level, only the writes count. -/
theorem replayMoves_undisturbed {ext : Bool} {es : List CallEnv} {cs : List Call}
    (h : ext = false ∨ ∀ e ∈ es.take cs.length, e.disturb = []) (m : PerLine Level) :
    replayMoves ext es cs m = replay cs m := by
  induction cs generalizing es m with
  | nil => rfl
  | cons c cs ih =>
    have hm : movesOf ext es = [] := by
      rcases h with h | h
      · simp [movesOf, h]
      · cases es with
        | nil => simp [movesOf, CallEnv.quiet]
        | cons e es => simp [movesOf, h e (by simp)]
    have ht : ext = false ∨ ∀ e ∈ es.tail.take cs.length, e.disturb = [] := by
      refine h.imp_right fun h e he => h e ?_
      cases es with
      | nil => simp at he
      | cons x es => exact List.mem_cons_of_mem _ he
    rw [replayMoves, hm, ih ht]
    exact (replay_append [c] cs m).symm

theorem levelsAfter_append {s t : State} {d : List Call} (hp : t.params = s.params)
    (he : t.environment = s.environment.drop d.length) (hl : t.levels = levelsAfter s d)
    (cs : List Call) : levelsAfter s (d ++ cs) = levelsAfter t cs := by
  rw [levelsAfter, replayMoves_append, levelsAfter, hp, he, hl]; rfl

theorem callDisturbs_eq_movesOf (s : State) :
    callDisturbs s = movesOf s.params.externalDisturbance s.environment := rfl

/-- Where no call failed, every line holds what the moves and the writes make of it. -/
theorem Made.levels_all {ps : List Prim} {s t : State} {done : List Call} (h : Made ps s t true done) :
    t.levels = levelsAfter s done :=
  PerLine.eq_of_get fun p => h.levels p fun _ hm => (h.complete rfl).2 _ hm rfl

/-- Where the environment sets no level, a line keeps what the writes make of it, unless the last call is
a failed write to it. -/
theorem Made.levels_undisturbed {ps : List Prim} {s t : State} {ok : Bool} {done : List Call}
    (h : Made ps s t ok done) (hu : UndisturbedUntil s t) {p : Line}
    (hp : ∀ b, ⟨.write p b, .failed⟩ ∉ done) : t.levels.get p = (replay done s.levels).get p := by
  rw [h.levels p hp, levelsAfter, replayMoves_undisturbed (hu.take h.environment)]

theorem Attempts.later {ps : List Prim} {s t : State} {ok : Bool} (h : Attempts ps s t ok) :
    Later s t := by
  obtain ⟨done, hd⟩ := h.calls
  exact ⟨h.params, _, hd.environment⟩

theorem Attempts.nil (s : State) : Attempts [] s s true where
  phase := rfl
  params := rfl
  inputs := rfl
  response := rfl
  calls := ⟨[], by simp, by simp, by simp, by simp, by simp, by simp, fun _ _ => rfl, by simp, by simp,
    by simp⟩
  levels := fun _ _ _ => rfl
  modes := fun _ h => h
  modesKept := fun _ => rfl
  modesSet := by simp

/-- Taking free values before the calls changes nothing that `Attempts` speaks of. -/
theorem Attempts.spend {ps : List Prim} {s t : State} {ok : Bool} {n : Nat}
    (h : Attempts ps (spend n s) t ok) : Attempts ps s t ok := by
  obtain ⟨done, hd⟩ := h.calls
  exact ⟨h.phase, h.params, h.inputs, h.response,
    ⟨done, hd.calls, hd.environment, hd.begins, hd.complete, hd.broken, hd.fails, hd.levels, hd.results,
      hd.reads, hd.modes⟩, h.levels, h.modes, h.modesKept, h.modesSet⟩

/-- A sequence that failed is a failed attempt at any longer one. -/
theorem Attempts.weaken {ps qs : List Prim} {s t : State} (h : Attempts ps s t false) :
    Attempts (ps ++ qs) s t false := by
  refine ⟨h.phase, h.params, h.inputs, h.response, ?_, ?_, h.modes, ?_, by simp⟩
  · obtain ⟨done, hd⟩ := h.calls
    exact ⟨done, hd.calls, hd.environment, hd.begins.trans (List.prefix_append _ _), by simp, hd.broken,
      hd.fails, hd.levels, hd.results, hd.reads, hd.modes⟩
  · exact fun hu p hp => h.levels hu p fun b hb => hp b (List.mem_append_left _ hb)
  · exact fun hp => h.modesKept fun p hb => hp p (List.mem_append_left _ hb)

/-- Calls made after calls of which none failed. -/
theorem Made.append {ps qs : List Prim} {s t u : State} {ok : Bool} {d1 d2 : List Call}
    (hp : t.params = s.params) (hm : ∀ p, t.modes.get p = .output → u.modes.get p = .output)
    (h : Made ps s t true d1) (k : Made qs t u ok d2) : Made (ps ++ qs) s u ok (d1 ++ d2) := by
  have hl := levelsAfter_append hp h.environment h.levels_all
  refine ⟨?_, ?_, ?_, ?_, ?_, ?_, ?_, ?_, ?_, ?_⟩
  · rw [k.calls, h.calls, List.append_assoc]
  · rw [k.environment, h.environment, List.drop_drop, List.length_append]
  · rw [List.map_append, (h.complete rfl).1]; exact (List.prefix_append_right_inj _).2 k.begins
  · intro hok
    refine ⟨by rw [List.map_append, (h.complete rfl).1, (k.complete hok).1], fun c hc => ?_⟩
    exact (List.mem_append.1 hc).elim ((h.complete rfl).2 c) ((k.complete hok).2 c)
  · intro hok
    obtain ⟨pre, c, e, hc, hpre⟩ := k.broken hok
    refine ⟨d1 ++ pre, c, by rw [e, List.append_assoc], hc, fun d hd => ?_⟩
    exact (List.mem_append.1 hd).elim ((h.complete rfl).2 d) (hpre d)
  · intro i c hi
    by_cases hlt : i < d1.length
    · rw [List.getElem?_append_left hlt] at hi
      exact h.fails i c hi
    · have hge : d1.length ≤ i := Nat.le_of_not_lt hlt
      rw [List.getElem?_append_right hge] at hi
      rw [k.fails _ c hi, hp, h.environment, List.getElem?_drop, Nat.add_sub_cancel' hge]
  · intro p hn
    rw [hl, k.levels p fun b hb => hn b (List.mem_append_right _ hb)]
  · intro c hc
    exact (List.mem_append.1 hc).elim (h.results c) (k.results c)
  · intro i p b hi
    by_cases hlt : i < d1.length
    · rw [List.getElem?_append_left hlt] at hi
      rw [List.take_append_of_le_length (Nat.le_of_lt hlt)]
      exact h.reads i p b hi
    · have hge : d1.length ≤ i := Nat.le_of_not_lt hlt
      rw [List.getElem?_append_right hge] at hi
      have := k.reads _ p b hi
      rwa [hp, h.environment, List.drop_drop, Nat.add_sub_cancel' hge, ← hl,
        ← List.take_length_add_append, Nat.add_sub_cancel' hge] at this
  · intro p
    refine ⟨fun hm' => ?_, fun hn => ?_⟩
    · exact (List.mem_append.1 hm').elim (fun x => hm p ((h.modes p).1 x)) (k.modes p).1
    · rw [(k.modes p).2 fun r hr => hn r (List.mem_append_right _ hr),
        (h.modes p).2 fun r hr => hn r (List.mem_append_left _ hr)]

/-- One sequence after another. -/
theorem Attempts.append {ps qs : List Prim} {s t u : State} {ok : Bool} (h : Attempts ps s t true)
    (k : Attempts qs t u ok) : Attempts (ps ++ qs) s u ok := by
  obtain ⟨d1, hd1⟩ := h.calls
  obtain ⟨d2, hd2⟩ := k.calls
  have hlater := h.later
  refine ⟨k.phase.trans h.phase, k.params.trans h.params, k.inputs.trans h.inputs,
    k.response.trans h.response, ⟨d1 ++ d2, hd1.append h.params k.modes hd2⟩, ?_, ?_, ?_, ?_⟩
  · intro hu p hp
    rw [k.levels (hu.after hlater k.later) p fun b hb => hp b (List.mem_append_right _ hb)]
    exact h.levels (hu.before hlater k.later) p fun b hb => hp b (List.mem_append_left _ hb)
  · exact fun p hp => k.modes p (h.modes p hp)
  · intro hp
    rw [k.modesKept fun p hb => hp p (List.mem_append_right _ hb)]
    exact h.modesKept fun p hb => hp p (List.mem_append_left _ hb)
  · intro hok p hp
    rcases List.mem_append.1 hp with hp | hp
    · exact k.modes p (h.modesSet rfl p hp)
    · exact k.modesSet hok p hp

theorem Attempts.andThen {ps qs : List Prim} {s : State} {r : Run} {f : State → Run}
    (h : Attempts ps s r.state r.ok) (k : ∀ t, Attempts qs t (f t).state (f t).ok) :
    Attempts (ps ++ qs) s (r.andThen f).state (r.andThen f).ok := by
  obtain ⟨t, ok⟩ := r
  cases ok with
  | true => exact h.append (k t)
  | false => exact h.weaken

/-- One call, from what it did: `r` is its result. -/
theorem Made.single {a : Prim} {s t : State} {ok : Bool} {r : CallResult}
    (hc : t.calls = s.calls ++ [⟨a, r⟩]) (he : t.environment = s.environment.tail)
    (hok : ok = true ↔ callFails s = false) (hr : r = .failed ↔ ok = false)
    (hl : ∀ p, (∀ b, (⟨a, r⟩ : Call) ≠ ⟨.write p b, .failed⟩) →
      t.levels.get p = (replay [⟨a, r⟩] (setLevels (callDisturbs s) s.levels)).get p)
    (hx : r = .failed ∨ r = .done ∨ ∃ p, a = .read p)
    (hv : ∀ p b, a = .read p → r = .value b →
      (setLevels (callDisturbs s) s.levels).get p ∈ [Level.unspecified, .holds b])
    (hm : ∀ p, ((⟨a, r⟩ : Call) = ⟨.setMode p, .done⟩ → t.modes.get p = .output) ∧
      (a ≠ .setMode p → t.modes.get p = s.modes.get p)) : Made [a] s t ok [⟨a, r⟩] := by
  have hf := callFails_iff (s := s)
  refine ⟨hc, by simp [he], by simp, fun h => ⟨rfl, ?_⟩, fun h => ⟨[], _, rfl, hr.2 h, by simp⟩, ?_, ?_, ?_,
    ?_, ?_⟩
  · simp only [List.mem_singleton, forall_eq]; intro hc'; rw [hr.1 hc'] at h; cases h
  · rintro (_ | k) c hk
    · simp only [List.getElem?_cons_zero, Option.some.injEq] at hk
      subst hk
      rw [← hf, hr]
      cases ok <;> simp_all
    · simp at hk
  · exact fun p hp => hl p fun b hb => hp b (by simp [hb])
  · simpa using hx
  · rintro (_ | k) p b hk
    · simp only [List.getElem?_cons_zero, Option.some.injEq, Call.mk.injEq] at hk
      exact hv p b hk.1 hk.2
    · simp at hk
  · intro p
    refine ⟨fun h => (hm p).1 (List.mem_singleton.1 h).symm, fun h => (hm p).2 fun ha => ?_⟩
    exact h r (by simp [ha])

theorem lineSetMode_attempts (p : Line) (s : State) :
    Attempts [.setMode p] s (lineSetMode p s).state (lineSetMode p s).ok := by
  unfold lineSetMode
  by_cases h : callFails s = true
  · simp only [h, if_true]
    refine ⟨rfl, rfl, rfl, rfl, ⟨_, .single (r := .failed) rfl rfl (by simp [h]) (by simp)
      (fun q _ => rfl) (.inl rfl) (by simp) fun q => ⟨by simp, fun hq => ?_⟩⟩, ?_, ?_, ?_, by simp⟩
    · exact PerLine.get_set_other _ _ fun e => hq (by rw [e])
    · intro hu q _; simp [hu.callDisturbs rfl, setLevels]
    · intro q hq
      by_cases hqp : q = p
      · subst hqp; simp [failedMode, hq]
      · simpa [PerLine.get_set_other _ _ hqp] using hq
    · intro hq; exact absurd List.mem_cons_self (hq p)
  · simp only [h]
    refine ⟨rfl, rfl, rfl, rfl, ⟨_, .single (r := .done) rfl rfl (by simp [h]) (by simp)
      (fun q _ => rfl) (.inr (.inl rfl)) (by simp) fun q => ⟨?_, fun hq => ?_⟩⟩, ?_, ?_, ?_, ?_⟩
    · intro e; simp only [Call.mk.injEq, Prim.setMode.injEq] at e; simp [e.1]
    · exact PerLine.get_set_other _ _ fun e => hq (by rw [e])
    · intro hu q _; simp [hu.callDisturbs rfl, setLevels]
    · intro q hq
      by_cases hqp : q = p
      · subst hqp; simp
      · simpa [PerLine.get_set_other _ _ hqp] using hq
    · intro hq; exact absurd List.mem_cons_self (hq p)
    · intro _ q hq; simp at hq; subst hq; simp

theorem lineWrite_attempts (p : Line) (b : Bool) (s : State) :
    Attempts [.write p b] s (lineWrite p b s).state (lineWrite p b s).ok := by
  have hother : ∀ q, (∀ x, Prim.write q x ∉ [Prim.write p b]) → q ≠ p := by
    rintro q hq rfl; exact absurd List.mem_cons_self (hq b)
  unfold lineWrite
  by_cases h : callFails s = true
  · simp only [h, if_true]
    refine ⟨rfl, rfl, rfl, rfl, ⟨_, .single (r := .failed) rfl rfl (by simp [h]) (by simp)
      (fun q hq => ?_) (.inl rfl) (by simp) fun q => ⟨by simp, fun _ => rfl⟩⟩, ?_, fun _ h => h, fun _ => rfl,
      by simp⟩
    · exact PerLine.get_set_other _ _ fun e => hq b (by rw [e])
    · intro hu q hq
      simp [hu.callDisturbs rfl, setLevels, PerLine.get_set_other _ _ (hother q hq)]
  · simp only [h]
    refine ⟨rfl, rfl, rfl, rfl, ⟨_, .single (r := .done) rfl rfl (by simp [h]) (by simp)
      (fun q _ => rfl) (.inr (.inl rfl)) (by simp) fun q => ⟨by simp, fun _ => rfl⟩⟩, ?_, fun _ h => h,
      fun _ => rfl, by simp⟩
    intro hu q hq
    simp [hu.callDisturbs rfl, setLevels, PerLine.get_set_other _ _ (hother q hq)]

theorem lineRead_attempts (p : Line) (s : State) :
    Attempts [.read p] s (lineRead p s).1 (lineRead p s).2.isSome := by
  unfold lineRead
  by_cases h : callFails s = true
  · simp only [h, if_true]
    refine ⟨rfl, rfl, rfl, rfl, ⟨_, .single (r := .failed) rfl rfl (by simp [h]) (by simp)
      (fun q _ => rfl) (.inl rfl) (by simp) fun q => ⟨by simp, fun _ => rfl⟩⟩, ?_, fun _ h => h, fun _ => rfl,
      by simp⟩
    intro hu q _; simp [hu.callDisturbs rfl, setLevels]
  · simp only [h]
    refine ⟨rfl, rfl, rfl, rfl, ⟨_, .single (r := .value _) rfl rfl (by simp [h]) (by simp)
      (fun q _ => rfl) (.inr (.inr ⟨_, rfl⟩)) ?_ fun q => ⟨by simp, fun _ => rfl⟩⟩, ?_, fun _ h => h,
      fun _ => rfl, by simp⟩
    · intro q b e1 e2
      cases e1; cases e2
      cases hl : (setLevels (callDisturbs s) s.levels).get p <;> simp [readLevel, hl]
    · intro hu q _; simp [hu.callDisturbs rfl, setLevels]

theorem setModeSeq_attempts (ps : List Line) (s : State) :
    Attempts (ps.map .setMode) s (setModeSeq ps s).state (setModeSeq ps s).ok := by
  induction ps generalizing s with
  | nil => exact .nil s
  | cons p ps ih => exact (lineSetMode_attempts p s).andThen ih

theorem writeSeq_attempts (ws : List (Line × Bool)) (s : State) :
    Attempts (writePrims ws) s (writeSeq ws s).state (writeSeq ws s).ok := by
  induction ws generalizing s with
  | nil => exact .nil s
  | cons w ws ih => exact (lineWrite_attempts w.1 w.2 s).andThen ih

theorem readSeq_attempts (ps : List Line) (s : State) :
    Attempts (ps.map .read) s (readSeq ps s).1 (readSeq ps s).2.isSome := by
  induction ps generalizing s with
  | nil => exact .nil s
  | cons p ps ih =>
    have h := lineRead_attempts p s
    simp only [readSeq]
    cases hr : (lineRead p s).2 with
    | none => rw [hr] at h; exact h.weaken (qs := ps.map .read)
    | some b =>
      rw [hr] at h
      have := h.append (ih (lineRead p s).1)
      simpa using this

theorem setModeAnyOrder_attempts (ps : List Line) (s : State) : ∃ qs : List Line, qs.Perm ps ∧
    Attempts (qs.map .setMode) s (setModeAnyOrder ps s).state (setModeAnyOrder ps s).ok :=
  ⟨_, arrange_perm _ _, (setModeSeq_attempts _ _).spend⟩

theorem writeAnyOrder_attempts (ws : List (Line × Bool)) (s : State) : ∃ vs : List (Line × Bool), vs.Perm ws ∧
    Attempts (writePrims vs) s (writeAnyOrder ws s).state (writeAnyOrder ws s).ok :=
  ⟨_, arrange_perm _ _, (writeSeq_attempts _ _).spend⟩

theorem writePrims_append (c d : List (Line × Bool)) :
    writePrims (c ++ d) = writePrims c ++ writePrims d := List.map_append

theorem Attempts.andThen' {ps : List Prim} {s : State} {r : Run} {f : State → Run}
    {P : List Prim → Prop} (h : Attempts ps s r.state r.ok)
    (k : ∀ t, ∃ qs, P qs ∧ Attempts qs t (f t).state (f t).ok) :
    ∃ qs, P qs ∧ Attempts (ps ++ qs) s (r.andThen f).state (r.andThen f).ok := by
  obtain ⟨t, ok⟩ := r
  obtain ⟨qs, hq, hk⟩ := k t
  cases ok with
  | true => exact ⟨qs, hq, h.append hk⟩
  | false => exact ⟨qs, hq, h.weaken⟩

/-- The body of an apply: a clear phase, then a set phase, ending at a failure (40_apply.md R70). -/
theorem applyBody_attempts (pins : List Line) (v : Option Pattern) (s : State) :
    ∃ c d : List (Line × Bool), ClearThenSet pins v c d ∧
      Attempts (writePrims (c ++ d)) s (applyBody pins v s).state (applyBody pins v s).ok := by
  cases v with
  | none => exact ⟨[], [], ⟨rfl, rfl⟩, .nil s⟩
  | some v =>
    obtain ⟨c, hc, h⟩ := writeAnyOrder_attempts (clearWrites pins) s
    obtain ⟨_, ⟨d, rfl, hd⟩, k⟩ := h.andThen' (P := fun qs => ∃ d, qs = writePrims d ∧
      d.Perm (setWrites pins v)) (f := writeAnyOrder (setWrites pins v)) fun t => by
        obtain ⟨d, hd, k⟩ := writeAnyOrder_attempts (setWrites pins v) t
        exact ⟨_, ⟨d, rfl, hd⟩, k⟩
    exact ⟨c, d, ⟨hc, hd⟩, by rw [writePrims_append]; exact k⟩

/-! ### Where nothing fails and nothing is disturbed -/

theorem Attempts.ok_of_noFailure {ps : List Prim} {s t : State} {ok : Bool} (h : Attempts ps s t ok)
    (hn : NoFailure s) : ok = true := by
  cases ok with
  | true => rfl
  | false =>
    obtain ⟨done, hm⟩ := h.calls
    obtain ⟨pre, c, rfl, hc, -⟩ := hm.broken rfl
    have hk := (hm.fails pre.length c (by simp)).1 hc
    obtain ⟨hd, e, he, hfe⟩ := hk
    rcases hn with hn | hn
    · rw [hn] at hd; cases hd
    · rw [hn e (List.mem_of_getElem? he)] at hfe; cases hfe

theorem lineWrite_levels_calm {s : State} (h : Calm s) (p : Line) (b : Bool) :
    (lineWrite p b s).state.levels = s.levels.set p (.holds b) := by
  simp [lineWrite, h.1.callFails, h.2.callDisturbs, setLevels]

theorem writeSeq_levels_calm {s : State} (h : Calm s) (ws : List (Line × Bool)) :
    (writeSeq ws s).state.levels = setLevels ws s.levels := by
  induction ws generalizing s with
  | nil => rfl
  | cons w ws ih =>
    have ha := lineWrite_attempts w.1 w.2 s
    have hok : (lineWrite w.1 w.2 s).ok = true := ha.ok_of_noFailure h.1
    rw [writeSeq, Run.andThen, if_pos hok, ih (h.later ha.later), lineWrite_levels_calm h]
    rfl

/-- The levels after writes of one bit in a free order, where nothing fails or is disturbed. -/
theorem writeAnyOrder_levels_calm {s : State} (h : Calm s) {ws : List (Line × Bool)} {b : Bool}
    (hb : ∀ w ∈ ws, w.2 = b) (p : Line) :
    (writeAnyOrder ws s).state.levels.get p =
      if p ∈ ws.map Prod.fst then .holds b else s.levels.get p := by
  have hp := arrange_perm s.draws ws
  have hcalm : Calm (spend ws.length s) := h
  rw [writeAnyOrder, writeSeq_levels_calm hcalm,
    setLevels_get_of_const (fun w hw => hb w (hp.mem_iff.1 hw))]
  simp only [(hp.map Prod.fst).mem_iff, spend_levels]

theorem map_fst_clearWrites (pins : List Line) : (clearWrites pins).map Prod.fst = pins := by
  simp [clearWrites, Function.comp_def]

theorem map_fst_setWrites (pins : List Line) (v : Pattern) :
    (setWrites pins v).map Prod.fst = setLines pins v := by
  simp [setWrites, Function.comp_def]

theorem setLines_subset (pins : List Line) (v : Pattern) : ∀ p ∈ setLines pins v, p ∈ pins := by
  induction pins generalizing v with
  | nil => intro p hp; cases v <;> simp [setLines] at hp
  | cons q ps ih =>
    intro p hp
    cases v with
    | nil => simp [setLines] at hp
    | cons b bs =>
      cases b
      · simp only [setLines, Bool.false_eq_true, if_false] at hp
        exact List.mem_cons_of_mem _ (ih bs p hp)
      · simp only [setLines, if_true, List.mem_cons] at hp
        rcases hp with rfl | hp
        · exact List.mem_cons_self
        · exact List.mem_cons_of_mem _ (ih bs p hp)

/-- The levels after an apply of a pattern, where nothing fails or is disturbed: 1 on the lines the
pattern sets, 0 on the rest of the group, every other line as it was. -/
theorem applyPattern_levels_calm {s : State} (h : Calm s) (pins : List Line) (v : Pattern) (p : Line) :
    (applyPattern pins v s).state.levels.get p =
      if p ∈ setLines pins v then .holds true
      else if p ∈ pins then .holds false else s.levels.get p := by
  obtain ⟨c, _, ha⟩ := writeAnyOrder_attempts (clearWrites pins) s
  have hok : (writeAnyOrder (clearWrites pins) s).ok = true := ha.ok_of_noFailure h.1
  rw [applyPattern, Run.andThen, if_pos hok,
    writeAnyOrder_levels_calm (h.later ha.later) (b := true) (by simp [setWrites]),
    writeAnyOrder_levels_calm h (b := false) (by simp [clearWrites]),
    map_fst_clearWrites, map_fst_setWrites]

/-- A group whose lines hold 1 where the pattern says and 0 elsewhere holds the pattern. -/
theorem holds_of_setLines {pins : List Line} {v : Pattern} {m : PerLine Level} (hn : pins.Nodup)
    (hl : v.length = pins.length)
    (h : ∀ p ∈ pins, m.get p = .holds (decide (p ∈ setLines pins v))) : Holds pins v m := by
  induction pins generalizing v with
  | nil => cases v <;> simp_all [Holds]
  | cons q ps ih =>
    cases v with
    | nil => simp at hl
    | cons b bs =>
      obtain ⟨hq, hn⟩ := List.nodup_cons.1 hn
      have hqs : q ∉ setLines ps bs := fun hc => hq (setLines_subset ps bs q hc)
      have hps : Holds ps bs m := by
        refine ih hn (by simpa using hl) fun p hp => ?_
        have hpq : p ≠ q := by rintro rfl; exact hq hp
        have := h p (List.mem_cons_of_mem _ hp)
        cases b <;> simpa [setLines, hpq] using this
      have hb := h q List.mem_cons_self
      unfold Holds at hps ⊢
      cases b <;> simp_all [setLines]

/-- The bits a read of a group reports, where nothing fails or is disturbed. -/
theorem readSeq_value_calm {s : State} (h : Calm s) (ps : List Line) :
    ∃ v, (readSeq ps s).2 = some v ∧ Reads (ps.map s.levels.get) v ∧
      (readSeq ps s).1.levels = s.levels := by
  induction ps generalizing s with
  | nil => exact ⟨[], rfl, .nil, rfl⟩
  | cons p ps ih =>
    have ha := lineRead_attempts p s
    have hl : (lineRead p s).1.levels = s.levels := by
      simp [lineRead, h.1.callFails, h.2.callDisturbs, setLevels]
    have hv : (lineRead p s).2 = some (readLevel s.draws (s.levels.get p)) := by
      simp [lineRead, h.1.callFails, h.2.callDisturbs, setLevels]
    obtain ⟨v, h1, h2, h3⟩ := ih (h.later ha.later)
    refine ⟨readLevel s.draws (s.levels.get p) :: v, ?_, ?_, ?_⟩
    · simp [readSeq, hv, h1]
    · rw [hl] at h2
      refine .cons ?_ h2
      cases s.levels.get p <;> simp [readLevel]
    · simp [readSeq, hv, h3, hl]

/-! ### Admission and the end of a command -/

/-- What it takes for a command on a group of lines to run, and what it then answers. -/
theorem onOperating_next {pins : List Line} {s t : State} {body : State → State} :
    onOperating pins s body = .next t ↔ Operating pins s ∧ t = body (startCommand s) := by
  unfold onOperating Operating
  by_cases h1 : s.phase = .uninit
  · simp [h1]
  · by_cases h2 : configured pins s = true
    · simp [h1, h2, eq_comm]
    · simp [h1, h2]

theorem conclude_ok {r : Run} {f : State → State} (h : r.ok = true) : conclude r f = f r.state := by
  simp [conclude, h]

theorem conclude_failed {r : Run} {f : State → State} (h : r.ok = false) :
    conclude r f = respond .driverFailure 0 r.state := by simp [conclude, h]

/-- What a field of the state that neither `finish` nor a response touches holds after a command. -/
theorem conclude_field {α : Type} (get : State → α) {r : Run} {f : State → State}
    (hf : ∀ s, get (f s) = get s) (hr : ∀ s, get (respond .driverFailure 0 s) = get s) :
    get (conclude r f) = get r.state := by
  unfold conclude
  split
  · exact hf _
  · exact hr _

end Sys2Proof.Machine
end

