-- ==== Sys2Proof/Laws/Exec.lean ====
section
/-! SUPPORT. What each command and each step can answer, once: an inversion lemma per command,
`exec_ran` over all of them, `step_cases` for a step. -/

namespace Sys2Proof.Machine

theorem setMode_not_mem_writePrims (ws : List (Line × Bool)) (p : Line) :
    Prim.setMode p ∉ writePrims ws := by simp [writePrims]

/-- The writes of an apply go to the lines of its group. -/
theorem ClearThenSet.mem_pins {pins : List Line} {v : Option Pattern} {c d : List (Line × Bool)}
    (h : ClearThenSet pins v c d) {p : Line} {b : Bool} (hm : Prim.write p b ∈ writePrims (c ++ d)) :
    p ∈ pins := by
  simp only [writePrims, List.map_append, List.mem_append, List.mem_map] at hm
  cases v with
  | none => obtain ⟨rfl, rfl⟩ := h; simp at hm
  | some v =>
    obtain ⟨hc, hd⟩ := h
    rcases hm with ⟨w, hw, e⟩ | ⟨w, hw, e⟩
    · have := List.mem_map_of_mem (f := Prod.fst) (hc.mem_iff.1 hw)
      rw [map_fst_clearWrites] at this
      cases e; exact this
    · have := List.mem_map_of_mem (f := Prod.fst) (hd.mem_iff.1 hw)
      rw [map_fst_setWrites] at this
      cases e; exact setLines_subset _ _ _ this

/-- What an apply answers when it runs. -/
theorem applyGroup_next {pins : List Line} {v : Option Pattern} {s t : State}
    (h : applyGroup pins v s = .next t) : ∃ c d u ok,
      s.phase ≠ .uninit ∧ (v.isSome = true → configured pins s = true) ∧ ClearThenSet pins v c d ∧
      Attempts (writePrims (c ++ d)) (startCommand s) u ok ∧
      t = if ok then respond (settingStatus v.isSome) 0 u else respond .driverFailure 0 u := by
  obtain ⟨⟨h0, h1⟩, rfl⟩ := onOperating_next.1 h
  obtain ⟨c, d, hcd, ha⟩ := applyBody_attempts pins v (startCommand s)
  exact ⟨c, d, _, _, h0, by cases v <;> simp_all, hcd, ha, rfl⟩

/-- What a read answers when it runs. -/
theorem readGroup_next {pins : List Line} {f : Pattern → Tag} {s t : State}
    (h : readGroup pins f s = .next t) : ∃ u v,
      Operating pins s ∧ readSeq pins (startCommand s) = (u, v) ∧
      Attempts (pins.map .read) (startCommand s) u v.isSome ∧
      t = match v with
        | none => respond .driverFailure 0 u
        | some v => respond .ok (f v) u := by
  obtain ⟨h0, rfl⟩ := onOperating_next.1 h
  exact ⟨_, _, h0, rfl, readSeq_attempts _ _, rfl⟩

/-- What `DISABLE_ALL` answers when it runs. -/
theorem execDisableAll_next {s t : State} (h : execDisableAll s = .next t) : ∃ ws u ok,
    Operating allLines s ∧ ws.Perm (clearWrites allLines) ∧
    Attempts (writePrims ws) (startCommand s) u ok ∧
    t = if ok then respond .ok 0 (putPhase .disabled u) else respond .driverFailure 0 u := by
  obtain ⟨h0, rfl⟩ := onOperating_next.1 h
  obtain ⟨ws, hp, ha⟩ := writeAnyOrder_attempts (clearWrites allLines) (startCommand s)
  exact ⟨ws, _, _, h0, hp, ha, rfl⟩

/-- The calls of steps 2 to 4 of the initialization, each phase in an order of its own. -/
def initPrims (ps : List Line) (c d c' d' : List (Line × Bool)) : List Prim :=
  ps.map .setMode ++ [.write .ctrlHigh true, .write .ctrlLow false] ++ writePrims (c ++ d) ++
    writePrims (c' ++ d')

theorem initSteps_attempts (tg : GainOperand) (tf : FilterOperand) (s : State) :
    ∃ (ps : List Line) (c d c' d' : List (Line × Bool)), ps.Perm allLines ∧
      ClearThenSet gainPins (gainPattern tg) c d ∧ ClearThenSet filterPins (filterPattern tf) c' d' ∧
      Attempts (initPrims ps c d c' d') s (initSteps tg tf s).state (initSteps tg tf s).ok := by
  obtain ⟨ps, hp, h1⟩ := setModeAnyOrder_attempts allLines s
  have h2 := h1.andThen (f := writeSeq controlWrites) (writeSeq_attempts controlWrites)
  obtain ⟨_, ⟨c, d, rfl, hcd⟩, h3⟩ := h2.andThen' (f := applyBody gainPins (gainPattern tg))
    (P := fun qs => ∃ c d, qs = writePrims (c ++ d) ∧ ClearThenSet gainPins (gainPattern tg) c d)
    fun t => by
      obtain ⟨c, d, h, k⟩ := applyBody_attempts gainPins (gainPattern tg) t
      exact ⟨_, ⟨c, d, rfl, h⟩, k⟩
  obtain ⟨_, ⟨c', d', rfl, hcd'⟩, h4⟩ := h3.andThen' (f := applyBody filterPins (filterPattern tf))
    (P := fun qs => ∃ c d, qs = writePrims (c ++ d) ∧ ClearThenSet filterPins (filterPattern tf) c d)
    fun t => by
      obtain ⟨c, d, h, k⟩ := applyBody_attempts filterPins (filterPattern tf) t
      exact ⟨_, ⟨c, d, rfl, h⟩, k⟩
  exact ⟨ps, c, d, c', d', hp, hcd, hcd', h4⟩

/-- What `INIT` answers when it runs: a failed connection, or the sequence. -/
theorem execInit_next {tg : GainOperand} {tf : FilterOperand} {s t : State}
    (h : execInit tg tf s = .next t) : s.phase = .uninit ∧
      ((s.params.connected = false ∧ t = respond .driverFailure 0 (startCommand s)) ∨
        (s.params.connected = true ∧ t = conclude (initSteps tg tf (startCommand s)) fun s1 =>
          respond (settingStatus ((gainPattern tg).isSome && (filterPattern tf).isSome)) 0
            (putPhase .ready s1))) := by
  unfold execInit at h
  split at h
  · rename_i hp
    simp only [Host.Outcome.next.injEq] at h
    refine ⟨hp, ?_⟩
    unfold runInit at h
    cases hc : s.params.connected <;> simp_all
  · cases h

/-- What every command's next state has to do with its calls: `ps` are the calls it tries, `u` is the
state after the calls it made, `ok` says that none of them failed. -/
structure Ran (i : Instr) (s t : State) (ps : List Prim) (u : State) (ok : Bool) : Prop where
  attempts : Attempts ps (startCommand s) u ok
  levels : t.levels = u.levels
  modes : t.modes = u.modes
  params : t.params = u.params
  calls : t.calls = u.calls
  inputs : t.inputs = u.inputs
  environment : t.environment = u.environment
  failed : ok = false → t.phase = s.phase ∧ t.response = some ⟨.driverFailure, 0, none⟩
  succeeded : ok = true → ∃ r, t.response = some r ∧ (r.status ≠ .driverFailure ∨
    (r.val = 0 ∧ t.calls = [] ∧ s.params.connected = false ∧ t.phase = s.phase ∧
      ∃ tg tf, i = .init tg tf))
  phase : t.phase = s.phase ∨
    (s.phase = .uninit ∧ t.phase = .ready ∧ ok = true ∧ status t ≠ some .driverFailure ∧
      ∃ tg tf, i = .init tg tf) ∨
    (s.phase ≠ .uninit ∧ t.phase = .disabled ∧ ok = true ∧ status t = some .ok ∧ i = .disableAll)

theorem applyGroup_ran {i : Instr} {pins : List Line} {v : Option Pattern} {s t : State}
    (h : applyGroup pins v s = .next t) : ∃ ps u ok, Ran i s t ps u ok := by
  obtain ⟨c, d, u, ok, -, -, -, ha, rfl⟩ := applyGroup_next h
  refine ⟨writePrims (c ++ d), u, ok, ?_⟩
  have hp := ha.phase
  cases ok with
  | true =>
    exact ⟨ha, rfl, rfl, rfl, rfl, rfl, rfl, by simp,
      fun _ => ⟨_, rfl, .inl (by cases v <;> simp [settingStatus])⟩, .inl hp⟩
  | false => exact ⟨ha, rfl, rfl, rfl, rfl, rfl, rfl, fun _ => ⟨hp, rfl⟩, by simp, .inl hp⟩

theorem readGroup_ran {i : Instr} {pins : List Line} {f : Pattern → Tag} {s t : State}
    (h : readGroup pins f s = .next t) : ∃ ps u ok, Ran i s t ps u ok := by
  obtain ⟨u, v, -, -, ha, rfl⟩ := readGroup_next h
  refine ⟨pins.map .read, u, v.isSome, ?_⟩
  have hp := ha.phase
  cases v with
  | some v =>
    exact ⟨ha, rfl, rfl, rfl, rfl, rfl, rfl, by simp, fun _ => ⟨_, rfl, .inl (by simp)⟩, .inl hp⟩
  | none => exact ⟨ha, rfl, rfl, rfl, rfl, rfl, rfl, fun _ => ⟨hp, rfl⟩, by simp, .inl hp⟩

theorem execInit_ran {tg : GainOperand} {tf : FilterOperand} {s t : State}
    (h : execInit tg tf s = .next t) : ∃ ps u ok, Ran (.init tg tf) s t ps u ok := by
  obtain ⟨ps, c, d, c', d', -, -, -, ha⟩ := initSteps_attempts tg tf (startCommand s)
  obtain ⟨h0, ⟨hc, rfl⟩ | ⟨hc, rfl⟩⟩ := execInit_next h
  · exact ⟨[], _, true, .nil _, rfl, rfl, rfl, rfl, rfl, rfl, by simp,
      fun _ => ⟨_, rfl, .inr ⟨rfl, rfl, hc, rfl, _, _, rfl⟩⟩, .inl rfl⟩
  · have hp := ha.phase
    refine ⟨initPrims ps c d c' d', (initSteps tg tf (startCommand s)).state,
      (initSteps tg tf (startCommand s)).ok, ?_⟩
    generalize initSteps tg tf (startCommand s) = r at *
    obtain ⟨u, ok⟩ := r
    cases ok with
    | false => exact ⟨ha, rfl, rfl, rfl, rfl, rfl, rfl, fun _ => ⟨hp, rfl⟩, by simp, .inl hp⟩
    | true =>
      refine ⟨ha, rfl, rfl, rfl, rfl, rfl, rfl, by simp, fun _ => ⟨_, rfl, .inl ?_⟩,
        .inr (.inl ⟨h0, rfl, rfl, ?_, _, _, rfl⟩)⟩
      · cases tg <;> cases tf <;> simp [gainPattern, filterPattern, settingStatus]
      · cases tg <;> cases tf <;> simp [conclude, gainPattern, filterPattern, settingStatus, status]

/-- Everything a command that answers a next state can do. -/
theorem exec_ran {i : Instr} {s t : State} (h : exec i s = .next t) :
    ∃ ps u ok, Ran i s t ps u ok := by
  cases i with
  | applyGain o => exact applyGroup_ran h
  | applyFilter o => exact applyGroup_ran h
  | readGain => exact readGroup_ran h
  | readFilter => exact readGroup_ran h
  | disableAll =>
    obtain ⟨ws, u, ok, ho, -, ha, rfl⟩ := execDisableAll_next h
    refine ⟨writePrims ws, u, ok, ?_⟩
    have hp := ha.phase
    cases ok with
    | true =>
      exact ⟨ha, rfl, rfl, rfl, rfl, rfl, rfl, by simp, fun _ => ⟨_, rfl, .inl (by simp)⟩,
        .inr (.inr ⟨ho.1, rfl, rfl, rfl, rfl⟩)⟩
    | false => exact ⟨ha, rfl, rfl, rfl, rfl, rfl, rfl, fun _ => ⟨hp, rfl⟩, by simp, .inl hp⟩
  | init tg tf => exact execInit_ran h
  | idn =>
    cases h
    exact ⟨[], _, true, .nil _, rfl, rfl, rfl, rfl, rfl, rfl, by simp,
      fun _ => ⟨_, rfl, .inl (by simp)⟩, .inl rfl⟩

/-- What a step can do: wait, a move of the environment, or a command. -/
theorem step_cases {s s' : State} (h : step s = .next s') :
    s' = s ∨ (∃ p b, s' = disturbLine p b (dropInput s)) ∨
      ∃ w i, s.inputs.head? = some (.command w) ∧ decode w = .ok i ∧
        exec i (dropInput s) = .next s' := by
  unfold step nextInput at h
  cases hi : s.inputs with
  | nil => simp [hi] at h; exact .inl h.symm
  | cons x rest =>
    cases x with
    | disturb p b => simp [hi] at h; exact .inr (.inl ⟨p, b, h.symm⟩)
    | command w =>
      simp only [hi] at h
      cases hd : decode w with
      | error e => simp [hd] at h
      | ok i => simp [hd] at h; exact .inr (.inr ⟨w, i, by simp, hd, h⟩)

end Sys2Proof.Machine
end

