-- ==== Sys2Proof/Laws/PerInstr.lean ====
section
/-! SUPPORT. Statements made for every instruction, one lemma per constructor. `RowOfWord`: the encoding
of a command lies in the row that the opcode map gives it (spec/30_encoding.md R59). -/

namespace Sys2Proof.Laws.RowOfWord

/-- The row's mask in spec/opcode_table.json. -/
def mask : Instr → CommandWord
  | .applyGain _ => 0xF0F
  | .applyFilter _ => 0xFF0
  | .readGain => 0xFFF
  | .readFilter => 0xFFF
  | .disableAll => 0xFFF
  | .init _ _ => 0xF00
  | .idn => 0xFFF

/-- The row's match in spec/opcode_table.json. -/
def pattern : Instr → CommandWord
  | .applyGain _ => 0x100
  | .applyFilter _ => 0x200
  | .readGain => 0x300
  | .readFilter => 0x400
  | .disableAll => 0x500
  | .init _ _ => 0x000
  | .idn => 0x600

/-- The command's word selects the command's own row. -/
def Statement (i : Instr) : Prop := encode i &&& mask i = pattern i

theorem applyGain (t : GainOperand) : Statement (.applyGain t) :=
  (by decide : ∀ x : Tag, (0x1#4 ++ x ++ 0x0#4 : CommandWord) &&& 0xF0F = 0x100) t.tag

theorem applyFilter (t : FilterOperand) : Statement (.applyFilter t) :=
  (by decide : ∀ x : Tag, (0x2#4 ++ 0x0#4 ++ x : CommandWord) &&& 0xFF0 = 0x200) t.tag

theorem readGain : Statement .readGain := by unfold Statement; decide

theorem readFilter : Statement .readFilter := by unfold Statement; decide

theorem disableAll : Statement .disableAll := by unfold Statement; decide

theorem init (tg : GainOperand) (tf : FilterOperand) : Statement (.init tg tf) :=
  (by decide : ∀ x y : Tag, (0x0#4 ++ x ++ y : CommandWord) &&& 0xF00 = 0x000) tg.tag tf.tag

theorem idn : Statement .idn := by unfold Statement; decide

end Sys2Proof.Laws.RowOfWord
end

