-- ==== Sys2Proof/Machine/HostSide.lean ====
section
/-! DEFINITION. The host's side of a command: the accessors of the two named values and the assembler
text (spec/30_encoding.md R65, R66). Nothing here changes what a command does. -/

namespace Sys2Proof.Machine

/-- A set or get of the named values `gain` and `LPF` (30_encoding.md R66). -/
inductive Accessor where
  | setGain (t : GainOperand)
  | getGain
  | setLpf (t : FilterOperand)
  | getLpf
  deriving DecidableEq, Repr

/-- The one command an accessor expands to (30_encoding.md R66). -/
def expand : Accessor → Instr
  | .setGain t => .applyGain t
  | .getGain => .readGain
  | .setLpf t => .applyFilter t
  | .getLpf => .readFilter

/-- A gain operand as the assembler writes it (30_encoding.md R65). -/
def gainText : GainOperand → String
  | .setting .g1e9 => "1e9"
  | .setting .g1e8 => "1e8"
  | .setting .g1e7 => "1e7"
  | .setting .g1e6 => "1e6"
  | .setting .g1e5 => "1e5"
  | .unrecognized t => "#" ++ toString t.toNat

/-- A filter operand as the assembler writes it (30_encoding.md R65). -/
def filterText : FilterOperand → String
  | .setting .f1e6 => "1e6"
  | .setting .f1e5 => "1e5"
  | .setting .f3e4 => "3e4"
  | .setting .f1e4 => "1e4"
  | .setting .f3e3 => "3e3"
  | .setting .f1e3 => "1e3"
  | .setting .f300 => "300"
  | .setting .f100 => "100"
  | .setting .f30 => "30"
  | .unrecognized t => "#" ++ toString t.toNat

/-- The textual form of a command (30_encoding.md R65). -/
def commandText : Instr → String
  | .applyGain t => "APPLY_GAIN " ++ gainText t
  | .applyFilter t => "APPLY_FILTER " ++ filterText t
  | .readGain => "READ_GAIN"
  | .readFilter => "READ_FILTER"
  | .disableAll => "DISABLE_ALL"
  | .init tg tf => "INIT " ++ gainText tg ++ ", " ++ filterText tf
  | .idn => "IDN"

end Sys2Proof.Machine
end

