-- ==== Sys2Proof/Tests/Slice0.lean ====
section
/-! SUPPORT. Tests with results taken from spec/95_test_vectors.md (section named at each) and a witness
for the hypotheses of each statement. -/

namespace Sys2Proof.Tests

open Sys2Proof Sys2Proof.Machine

/-! ### Well-formedness: a term that each check refuses, and one it admits -/

theorem test_wf_refuses_recognized_gain_tag : (Instr.applyGain (.unrecognized 5)).wf = false := by decide
theorem test_wf_refuses_recognized_filter_tag : (Instr.applyFilter (.unrecognized 9)).wf = false := by
  decide
theorem test_wf_refuses_init_gain : (Instr.init (.unrecognized 1) (.setting .f30)).wf = false := by
  decide
theorem test_wf_refuses_init_filter : (Instr.init (.setting .g1e5) (.unrecognized 1)).wf = false := by
  decide
theorem test_wf_admits_unrecognized : (Instr.init (.unrecognized 6) (.unrecognized 10)).wf = true := by
  decide

/-! ### Decoding, words written out from 30_encoding.md R58, R59 (section 2.5) -/

theorem test_decode_apply_gain : decode 0b000100100000 = .ok (.applyGain (.setting .g1e8)) := by decide
theorem test_decode_apply_filter : decode 0b001000001001 = .ok (.applyFilter (.setting .f30)) := by
  decide
theorem test_decode_read_gain : decode 0b001100000000 = .ok .readGain := by decide
theorem test_decode_read_filter : decode 0b010000000000 = .ok .readFilter := by decide
theorem test_decode_disable_all : decode 0b010100000000 = .ok .disableAll := by decide
theorem test_decode_init : decode 0b000000100110 = .ok (.init (.setting .g1e8) (.setting .f1e3)) := by
  decide
theorem test_decode_init_unrecognized : decode 0x0FF = .ok (.init (.unrecognized 15) (.unrecognized 15)) := by
  decide
theorem test_decode_idn : decode 0b011000000000 = .ok .idn := by decide
theorem test_decode_reserved_field :
    [0x121, 0x219, 0x301, 0x310, 0x501, 0x610].all
      (fun w => decode (BitVec.ofNat 12 w) == .error .reservedField) = true := by decide
theorem test_decode_reserved_opcode :
    [0x700, 0x800, 0xFFF].all
      (fun w => decode (BitVec.ofNat 12 w) == .error .reservedOpcode) = true := by decide
theorem test_decode_table_word : decodeTableWord 16 0x1F0 = some (.applyGain (.unrecognized 15)) := by
  decide
theorem test_encode_init : encode (.init (.setting .g1e5) (.setting .f30)) = 0x059 := by decide

/-! ### Tables and response words (section 1 S1, S2, S6; section 2.2) -/

theorem test_gain_zero_reads_1e5 : gainTag (gainDec [false, false, false]) = 5 := by decide
theorem test_gain_invalid : gainTag (gainDec [true, false, true]) = 0 := by decide
theorem test_filter_3e4 : filterTag (filterDec [false, true, true, false]) = 3 := by decide
theorem test_filter_invalid : filterTag (filterDec [true, false, false, true]) = 0 := by decide
theorem test_filter_1e6_sets_line9 : filterEnc .f1e6 = [false, false, false, true] := by decide
theorem test_response_words : responseWord ⟨.ok, 5, none⟩ = 0x05 ∧
    responseWord ⟨.warnUnrecognized, 0, none⟩ = 0x10 ∧ responseWord ⟨.driverFailure, 0, none⟩ = 0x20 := by
  decide
theorem test_text : commandText (.init (.setting .g1e8) (.setting .f1e3)) = "INIT 1e8, 1e3" := by decide
theorem test_text_raw : commandText (.applyGain (.unrecognized 10)) = "APPLY_GAIN #10" := by decide
theorem test_accessor : expand (.setLpf (.setting .f300)) = .applyFilter (.setting .f300) := by decide

/-! ### States for the tests -/

/-- Ten levels from gain, filter, control and tenth line. -/
def levelsOf (g : Bool × Bool × Bool) (f : Bool × Bool × Bool × Bool) (h k x : Bool) : PerLine Level :=
  ⟨.holds g.1, .holds f.1, .holds g.2.1, .holds f.2.1, .holds g.2.2, .holds f.2.2.1, .holds f.2.2.2,
    .holds h, .holds k, .holds x⟩

/-- The end state of program P1 (section 3): READY, gain 1e8, filter 1e3, on a quiet bench. -/
def afterP1 : State where
  phase := .ready
  modes := .const .output
  levels := levelsOf (true, true, false) (true, true, false, false) true false false
  params := ⟨false, false, true⟩
  response := none
  calls := []
  inputs := []
  environment := []
  draws := 0

/-- The same on a bench where the call after `n` successful ones fails. -/
def failingAfter (n : Nat) : State :=
  { afterP1 with params := ⟨true, false, true⟩, environment := List.replicate n .quiet ++ [⟨[], true⟩] }

/-- The same where the environment sets line 6 just before the third call. -/
def disturbedAtThird : State :=
  { afterP1 with params := ⟨false, true, true⟩, environment := [.quiet, .quiet, ⟨[(.line6, true)], false⟩] }

/-- Before `INIT`, on a quiet bench with the connection made. -/
def beforeInit : State :=
  { afterP1 with phase := .uninit, modes := .const .unconfigured, levels := .const .unspecified }

/-- The last response of an outcome. -/
def responseOf : Result → Option Response
  | .next t => t.response
  | .fault _ => none
  | .refused _ => none

/-- The reason of a refusal. -/
def refusalOf : Result → Option Refusal
  | .next _ => none
  | .fault _ => none
  | .refused r => some r

/-! ### Primitive sequences, in the ascending order of section 2 -/

/-- P2 line 1: five writes, gain (1,1,0). -/
theorem test_writes_of_1e8 :
    (writeSeq (clearWrites gainPins ++ setWrites gainPins (gainEnc .g1e8)) afterP1).state.calls.map Call.prim =
      [.write .line2 false, .write .line4 false, .write .line6 false, .write .line2 true,
        .write .line4 true] := by decide

/-- Section 2.6: the sixth primitive of `APPLY_FILTER 1e5` fails; W(7,1) is not issued. -/
theorem test_sixth_write_fails :
    (writeSeq (clearWrites filterPins ++ setWrites filterPins (filterEnc .f1e5)) (failingAfter 5)).state.calls =
      [⟨.write .line3 false, .done⟩, ⟨.write .line5 false, .done⟩, ⟨.write .line7 false, .done⟩,
        ⟨.write .line9 false, .done⟩, ⟨.write .line3 true, .done⟩, ⟨.write .line5 true, .failed⟩] := by
  decide

/-! ### Commands -/

/-- P1 line 2. -/
theorem test_read_gain : responseOf (exec .readGain afterP1) = some ⟨.ok, 2, none⟩ := by decide
/-- P1 line 3. -/
theorem test_read_filter : responseOf (exec .readFilter afterP1) = some ⟨.ok, 6, none⟩ := by decide
/-- P5 line 2: the vector (1,1,1) reads Unknown; here the disturbance falls between two reads. -/
theorem test_read_gain_disturbed : responseOf (exec .readGain disturbedAtThird) = some ⟨.ok, 0, none⟩ := by
  decide
/-- P3 line 1. -/
theorem test_apply_unrecognized :
    responseOf (exec (.applyGain (.unrecognized 10)) afterP1) = some ⟨.warnUnrecognized, 0, none⟩ := by
  decide
/-- P4 line 6. -/
theorem test_second_init : refusalOf (exec (.init (.setting .g1e8) (.setting .f1e3)) afterP1) =
    some .alreadyInitialized := by decide
/-- Section 2.4: `INIT` without a connection answers 0x20. -/
theorem test_init_not_connected :
    responseOf (exec (.init (.setting .g1e8) (.setting .f1e3))
      { beforeInit with params := ⟨false, false, false⟩ }) = some ⟨.driverFailure, 0, none⟩ := by decide
/-- Section 2.4: `IDN` in any phase. -/
theorem test_idn : (responseOf (exec .idn beforeInit)).map (·.status) = some .ok := by decide
/-- P5 line 1: the environment sets line 6. -/
theorem test_disturb_step : step { disturbedAtThird with inputs := [.disturb .line6 true] } =
    .next { disturbedAtThird with levels := disturbedAtThird.levels.set .line6 (.holds true) } := rfl
/-- Section 2.5: a word with a reserved opcode is refused. -/
theorem test_step_illegal : step { afterP1 with inputs := [.command 0x700] } = .refused .illegalCommand := rfl
/-- A word placed after reset is the next to run; `INIT` gives a next state. -/
theorem test_fetch_after_reset : ∃ t, step (State.reset.withFetchWord 16 0x026) = .next t := ⟨_, rfl⟩

/-! ### Writing commands: their order is free, so these cite the laws -/

theorem calm_afterP1 : Calm afterP1 := ⟨.inl rfl, .inl rfl⟩

/-- S8, P2 line 2: from gain (1,1,0), `APPLY_GAIN 1e5` leaves (0,0,0), in every order of the writes. -/
theorem test_apply_gain_residue (p : Line) (h : p ∈ gainPins) :
    (applyPattern gainPins (gainEnc .g1e5) afterP1).state.levels.get p = .holds false := by
  rw [applyPattern_levels_calm calm_afterP1, if_neg (by decide +revert), if_pos h]

/-- Section 2.1: `APPLY_FILTER 1e6` sets line 9 and clears line 3. -/
theorem test_apply_filter_1e6 :
    (applyPattern filterPins (filterEnc .f1e6) afterP1).state.levels.get .line9 = .holds true ∧
    (applyPattern filterPins (filterEnc .f1e6) afterP1).state.levels.get .line3 = .holds false := by
  rw [applyPattern_levels_calm calm_afterP1, applyPattern_levels_calm calm_afterP1]; decide

/-- S7: after the ten writes of `DISABLE_ALL` the high control line is 0. -/
theorem test_disable_clears_control :
    (writeAnyOrder (clearWrites allLines) afterP1).state.levels.get .ctrlHigh = .holds false := by
  rw [writeAnyOrder_levels_calm calm_afterP1 (b := false) (by decide)]; decide

/-! ### Witnesses: the hypotheses of each statement can be met -/

/-- A recognized apply on a quiet bench responds OK. -/
theorem apply_gain_ok : ∃ t, exec (.applyGain (.setting .g1e8)) afterP1 = .next t ∧ status t = some .ok := by
  obtain ⟨t, h⟩ : ∃ t, exec (.applyGain (.setting .g1e8)) afterP1 = .next t := ⟨_, rfl⟩
  refine ⟨t, h, ?_⟩
  have h' : applyGroup gainPins (gainPattern (.setting .g1e8)) afterP1 = .next t := h
  obtain ⟨c, d, u, ok, -, -, -, ha, rfl⟩ := applyGroup_next h'
  rw [ha.ok_of_noFailure (.inl rfl)]; rfl

theorem apply_filter_ok :
    ∃ t, exec (.applyFilter (.setting .f30)) afterP1 = .next t ∧ status t = some .ok := by
  obtain ⟨t, h⟩ : ∃ t, exec (.applyFilter (.setting .f30)) afterP1 = .next t := ⟨_, rfl⟩
  refine ⟨t, h, ?_⟩
  have h' : applyGroup filterPins (filterPattern (.setting .f30)) afterP1 = .next t := h
  obtain ⟨c, d, u, ok, -, -, -, ha, rfl⟩ := applyGroup_next h'
  rw [ha.ok_of_noFailure (.inl rfl)]; rfl

/-- Where the first call fails, a command that makes a call responds DRIVER_FAILURE. -/
theorem disable_all_failed :
    ∃ t, exec .disableAll (failingAfter 0) = .next t ∧ status t = some .driverFailure := by
  obtain ⟨t, h⟩ : ∃ t, exec .disableAll (failingAfter 0) = .next t := ⟨_, rfl⟩
  refine ⟨t, h, ?_⟩
  obtain ⟨ws, u, ok, -, hp, ha, rfl⟩ := execDisableAll_next h
  cases ok with
  | false => rfl
  | true =>
    obtain ⟨done, -, -, -, h4, -, h6, -⟩ := ha.calls
    obtain ⟨hd, hf⟩ := h4 rfl
    cases done with
    | nil =>
      have hlen := hp.length_eq
      have := congrArg List.length hd
      simp [writePrims] at this
      rw [← this] at hlen
      exact absurd hlen (by decide)
    | cons c cs =>
      exact absurd ((h6 0 c rfl).2 ⟨rfl, ⟨[], true⟩, rfl, rfl⟩) (hf c List.mem_cons_self)

theorem disable_all_ok : ∃ t, exec .disableAll afterP1 = .next t ∧ status t = some .ok := by
  obtain ⟨t, h⟩ : ∃ t, exec .disableAll afterP1 = .next t := ⟨_, rfl⟩
  refine ⟨t, h, ?_⟩
  obtain ⟨ws, u, ok, -, -, ha, rfl⟩ := execDisableAll_next h
  rw [ha.ok_of_noFailure (.inl rfl)]; rfl

theorem init_ok : ∃ t, exec (.init (.setting .g1e8) (.setting .f1e3)) beforeInit = .next t ∧
    status t = some .ok := by
  obtain ⟨t, h⟩ : ∃ t, exec (.init (.setting .g1e8) (.setting .f1e3)) beforeInit = .next t := ⟨_, rfl⟩
  refine ⟨t, h, ?_⟩
  obtain ⟨-, ⟨hc, -⟩ | ⟨-, rfl⟩⟩ := execInit_next h
  · cases hc
  · obtain ⟨ps, c, d, c', d', -, -, -, ha⟩ :=
      initSteps_attempts (.setting .g1e8) (.setting .f1e3) (startCommand beforeInit)
    rw [conclude_ok (ha.ok_of_noFailure (.inl rfl))]; rfl

theorem witness_DecodeOfEncode : (Instr.init (.setting .g1e8) (.unrecognized 10)).wf = true := by decide
theorem witness_EncodeOfDecode : ∃ w i, decode w = .ok i := ⟨0x120, _, test_decode_apply_gain⟩
theorem witness_IllegalWordsRefused : IllegalWord 0x700 ∧ IllegalWord 0x121 ∧ IllegalWord 0x219 ∧
    IllegalWord 0x601 ∧ ¬ IllegalWord 0x0FF ∧ ¬ IllegalWord 0x600 ∧
    ∃ s : State, s.inputs = .command 0x700 :: [] := by
  refine ⟨?_, ?_, ?_, ?_, ?_, ?_, ⟨{ afterP1 with inputs := [.command 0x700] }, rfl⟩⟩ <;>
    unfold IllegalWord <;> decide
/-- Clause by clause: a write that succeeds, a failing one on a known and on an unknown level, and one that
the environment precedes with a move. -/
theorem witness_LineWriteEffect :
    (lineWrite .line2 true afterP1).ok = true ∧ (lineWrite .line2 true (failingAfter 0)).ok = false ∧
    (setLevels (callDisturbs (failingAfter 0)) (failingAfter 0).levels).get .line2 ≠ .unspecified ∧
    (lineWrite .line2 true { failingAfter 0 with levels := .const .unspecified }).ok = false ∧
    (setLevels (callDisturbs { failingAfter 0 with levels := .const .unspecified })
      (.const .unspecified)).get .line2 = .unspecified ∧
    callDisturbs { disturbedAtThird with environment := [⟨[(.line6, true)], false⟩] } = [(.line6, true)] := by
  decide
theorem witness_ReadAfterWrite : ∃ t u, (∀ x, Prim.write .line2 x ∉ [Prim.write .line4 true, .read .line6]) ∧
    t = (lineWrite .line2 true afterP1).state ∧ (lineWrite .line2 true afterP1).ok = true ∧
    u = (runPrims [.write .line4 true, .read .line6] t).state ∧
    (runPrims [.write .line4 true, .read .line6] t).ok = true ∧
    callFails u = false ∧ UndisturbedUntil t (lineRead .line2 u).1 :=
  ⟨_, _, by decide, rfl, rfl, rfl, rfl, rfl, .inl rfl⟩
theorem witness_LineReadEffect : callFails afterP1 = false ∧ callFails (failingAfter 0) = true ∧
    callDisturbs { disturbedAtThird with environment := [⟨[(.line6, true)], false⟩] } = [(.line6, true)] := by
  decide
theorem witness_ApplyGainEffect : Operating gainPins afterP1 ∧ Calm afterP1 :=
  ⟨⟨by decide, by decide⟩, calm_afterP1⟩
theorem witness_ApplyFilterEffect : Operating filterPins afterP1 ∧ Calm afterP1 :=
  ⟨⟨by decide, by decide⟩, calm_afterP1⟩
theorem witness_UnrecognizedApplyWarns : afterP1.phase ≠ .uninit := by decide
theorem witness_ApplyClearsThenSets :
    (∃ t, exec (.applyGain (.setting .g1e8)) afterP1 = .next t ∧ status t = some .ok) ∧
    ∃ t, exec (.applyFilter (.setting .f30)) afterP1 = .next t ∧ status t = some .ok :=
  ⟨apply_gain_ok, apply_filter_ok⟩
theorem witness_ApplyFrame : (∃ t, exec (.applyGain (.setting .g1e8)) afterP1 = .next t) ∧
    (∃ t, exec (.applyFilter (.setting .f30)) afterP1 = .next t) ∧
    ∀ t, UndisturbedUntil afterP1 t :=
  ⟨⟨_, rfl⟩, ⟨_, rfl⟩, fun _ => .inl rfl⟩
theorem witness_ApplyTransientsValid : GainValid afterP1.levels ∧ FilterValid afterP1.levels ∧
    (∃ t, exec (.applyGain (.setting .g1e8)) afterP1 = .next t) ∧
    ∃ t, exec (.applyFilter (.setting .f30)) afterP1 = .next t :=
  ⟨⟨.g1e8, rfl⟩, ⟨.f1e3, rfl⟩, ⟨_, rfl⟩, ⟨_, rfl⟩⟩
theorem witness_ReadGainEffect : Operating gainPins afterP1 ∧ Calm afterP1 :=
  ⟨⟨by decide, by decide⟩, calm_afterP1⟩
theorem witness_ReadFilterEffect : Operating filterPins afterP1 ∧ Calm afterP1 :=
  ⟨⟨by decide, by decide⟩, calm_afterP1⟩
theorem witness_ReadFrame : (∃ t, exec .readGain afterP1 = .next t) ∧
    (∃ t, exec .readFilter afterP1 = .next t) ∧
    ∀ t, UndisturbedUntil afterP1 t :=
  ⟨⟨_, rfl⟩, ⟨_, rfl⟩, fun _ => .inl rfl⟩
theorem witness_ReadNeverCoerces : (∀ t, UndisturbedUntil afterP1 t) ∧
    (Holds gainPins [true, true, false] afterP1.levels ∧
      ∃ t, exec .readGain afterP1 = .next t ∧ t.response = some ⟨.ok, 2, none⟩) ∧
    (Holds filterPins [true, true, false, false] afterP1.levels ∧
      ∃ t, exec .readFilter afterP1 = .next t ∧ t.response = some ⟨.ok, 6, none⟩) ∧
    Holds gainPins [true, true, true] (afterP1.levels.set .line6 (.holds true)) ∧
      ∃ t, exec .readGain { afterP1 with levels := afterP1.levels.set .line6 (.holds true) } = .next t ∧
        t.response = some ⟨.ok, 0, none⟩ :=
  ⟨fun _ => .inl rfl, ⟨rfl, _, rfl, rfl⟩, ⟨rfl, _, rfl, rfl⟩, rfl, _, rfl, rfl⟩
/-- What the quiet bench keeps through any command. -/
def Usable (s : State) : Prop :=
  s.phase ≠ .uninit ∧ (∀ p, s.modes.get p = .output) ∧ s.params.driverMayFail = false

theorem usable_exec {i : Instr} {s t : State} (hs : Usable s) (h : exec i s = .next t) : Usable t := by
  obtain ⟨ps, u, ok, R⟩ := exec_ran h
  refine ⟨?_, fun p => ?_, ?_⟩
  · rcases R.phase with e | ⟨-, e, -⟩ | ⟨-, e, -⟩ <;> rw [e]
    · exact hs.1
    · decide
    · decide
  · rw [R.modes]; exact R.attempts.modes p (hs.2.1 p)
  · rw [R.params, R.attempts.params]; exact hs.2.2

theorem usable_afterP1 : Usable afterP1 := ⟨by decide, fun p => by cases p <;> rfl, rfl⟩

/-- A usable state admits a read of a group, which does not fail. -/
theorem usable_read {s : State} (hs : Usable s) (pins : List Line) (f : Pattern → Tag) :
    ∃ t, readGroup pins f s = .next t ∧ status t ≠ some .driverFailure := by
  obtain ⟨t, ht⟩ : ∃ t, readGroup pins f s = .next t :=
    ⟨_, onOperating_next.2 ⟨⟨hs.1, configured_iff.2 fun p _ => hs.2.1 p⟩, rfl⟩⟩
  obtain ⟨u, v, -, -, ha, rfl⟩ := readGroup_next ht
  have hok := ha.ok_of_noFailure (.inl hs.2.2)
  cases v with
  | none => cases hok
  | some v => exact ⟨_, ht, by simp [status]⟩

/-- A usable state admits an apply of an unrecognized tag. -/
theorem usable_warned {s : State} (hs : Usable s) (pins : List Line) :
    ∃ t, applyGroup pins none s = .next t :=
  ⟨_, onOperating_next.2 ⟨⟨hs.1, rfl⟩, rfl⟩⟩

/-- An unrecognized apply of the same group comes between the apply and the read. -/
theorem witness_ApplyReadRoundTrip :
    (∃ s1 s2 t, exec (.applyGain (.setting .g1e8)) afterP1 = .next s1 ∧
      status s1 = some .ok ∧ (∀ i ∈ [Instr.applyGain (.unrecognized 7)], sparesGain i = true) ∧
      execAll [.applyGain (.unrecognized 7)] s1 = .next s2 ∧ exec .readGain s2 = .next t ∧
      UndisturbedUntil afterP1 t ∧ status t ≠ some .driverFailure) ∧
    ∃ s1 s2 t, exec (.applyFilter (.setting .f30)) afterP1 = .next s1 ∧
      status s1 = some .ok ∧ (∀ i ∈ [Instr.applyFilter (.unrecognized 12)], sparesFilter i = true) ∧
      execAll [.applyFilter (.unrecognized 12)] s1 = .next s2 ∧ exec .readFilter s2 = .next t ∧
      UndisturbedUntil afterP1 t ∧ status t ≠ some .driverFailure := by
  constructor
  · obtain ⟨s1, h, hs⟩ := apply_gain_ok
    have h1 := usable_exec usable_afterP1 h
    obtain ⟨s2, h2⟩ : ∃ s2, exec (.applyGain (.unrecognized 7)) s1 = .next s2 := usable_warned h1 _
    obtain ⟨t, hr, hn⟩ := usable_read (usable_exec h1 h2) gainPins (fun v => gainTag (gainDec v))
    exact ⟨s1, s2, t, h, hs, by decide, by rw [execAll, h2]; rfl, hr, .inl rfl, hn⟩
  · obtain ⟨s1, h, hs⟩ := apply_filter_ok
    have h1 := usable_exec usable_afterP1 h
    obtain ⟨s2, h2⟩ : ∃ s2, exec (.applyFilter (.unrecognized 12)) s1 = .next s2 := usable_warned h1 _
    obtain ⟨t, hr, hn⟩ := usable_read (usable_exec h1 h2) filterPins (fun v => filterTag (filterDec v))
    exact ⟨s1, s2, t, h, hs, by decide, by rw [execAll, h2]; rfl, hr, .inl rfl, hn⟩
theorem witness_ReadSeesOwnGroupOnly :
    (∀ p ∈ gainPins, (afterP1.levels.set .line3 (.holds false)).get p = afterP1.levels.get p) ∧
    (∀ p ∈ filterPins, (afterP1.levels.set .line2 (.holds false)).get p = afterP1.levels.get p) ∧
    (∃ t, exec .readGain afterP1 = .next t) ∧ ∃ t, exec .readFilter afterP1 = .next t :=
  ⟨by decide, by decide, ⟨_, rfl⟩, ⟨_, rfl⟩⟩
theorem witness_DisableAllEffect : Operating allLines afterP1 ∧ Calm afterP1 :=
  ⟨⟨by decide, by decide⟩, calm_afterP1⟩
theorem witness_DisableAllFrame :
    ∃ t, exec .disableAll (failingAfter 0) = .next t ∧ status t = some .driverFailure := disable_all_failed
theorem witness_InitEffect :
    beforeInit.phase = .uninit ∧ beforeInit.params.connected = true ∧ Calm beforeInit :=
  ⟨rfl, rfl, .inl rfl, .inl rfl⟩
theorem witness_InitFrame : (∃ t, exec (.init (.unrecognized 0) (.unrecognized 10)) beforeInit = .next t) ∧
    ∀ t, UndisturbedUntil beforeInit t := ⟨⟨_, rfl⟩, fun _ => .inl rfl⟩
theorem witness_InitStepOrder : ∃ t, exec (.init (.setting .g1e8) (.setting .f1e3)) beforeInit = .next t ∧
    status t ≠ some .driverFailure := by
  obtain ⟨t, h, hs⟩ := init_ok
  exact ⟨t, h, by rw [hs]; decide⟩
theorem witness_InitNotConnected : ({ beforeInit with params := ⟨false, false, false⟩ } : State).phase =
    .uninit ∧ ({ beforeInit with params := ⟨false, false, false⟩ } : State).params.connected = false :=
  ⟨rfl, rfl⟩
/-- `INIT` made its gain writes, so that the ordering statement speaks of some call. -/
theorem witness_InitControlLinesFirst : ∃ t pre c post p b,
    exec (.init (.setting .g1e5) (.unrecognized 0)) beforeInit = .next t ∧ t.calls = pre ++ c :: post ∧
      c.prim = .write p b ∧ p ∈ gainPins ++ filterPins := by
  obtain ⟨t, h⟩ : ∃ t, exec (.init (.setting .g1e5) (.unrecognized 0)) beforeInit = .next t := ⟨_, rfl⟩
  obtain ⟨-, ⟨hc, -⟩ | ⟨-, ht⟩⟩ := execInit_next h
  · cases hc
  · obtain ⟨ps, c, d, c', d', -, hcd, -, ha⟩ :=
      initSteps_attempts (.setting .g1e5) (.unrecognized 0) (startCommand beforeInit)
    have hok := ha.ok_of_noFailure (.inl rfl)
    obtain ⟨done, e1, -, -, e4, -⟩ := ha.calls
    have hcalls : t.calls = done := by rw [ht, conclude_ok hok]; exact e1
    have hw : Prim.write .line2 false ∈ done.map Call.prim := by
      rw [(e4 hok).1]
      have : (Line.line2, false) ∈ c := hcd.1.mem_iff.2 (by decide)
      have : Prim.write .line2 false ∈ writePrims (c ++ d) := by
        rw [writePrims_append]; exact List.mem_append_left _ (List.mem_map_of_mem this)
      exact List.mem_append_left _ (List.mem_append_right _ this)
    obtain ⟨x, hx, hp⟩ := List.mem_map.1 hw
    obtain ⟨pre, post, e⟩ := List.append_of_mem hx
    exact ⟨t, pre, x, post, _, _, h, hcalls.trans e, hp, by decide⟩
theorem witness_AdmissionByPhase : beforeInit.phase = .uninit ∧ afterP1.phase ≠ .uninit ∧
    OutputsConfigured afterP1 ∧ (∀ i, decode 0x700 ≠ .ok i) ∧
    (∃ t, exec (.init (.setting .g1e8) (.setting .f1e3)) beforeInit = .next t ∧ status t = some .ok) ∧
    ∃ t, exec .disableAll afterP1 = .next t ∧ status t = some .ok :=
  by
    refine ⟨rfl, by decide, fun _ => by decide, ?_, init_ok, disable_all_ok⟩
    intro i h
    rw [show decode 0x700 = .error .reservedOpcode by decide] at h
    cases h
theorem witness_UnconfiguredLinesRefused : ∃ s : State, s.phase ≠ .uninit ∧
    configured gainPins s = false ∧ configured filterPins s = false ∧ configured allLines s = false :=
  ⟨{ afterP1 with modes := .const .unconfigured }, by decide, by decide, by decide, by decide⟩
theorem witness_DriverFailureEndsCommand :
    (∃ t r, exec .readGain (failingAfter 1) = .next t ∧ t.response = some r ∧
      r.status = .driverFailure) ∧
    (∃ t r, exec .readGain afterP1 = .next t ∧ t.response = some r ∧ r.status ≠ .driverFailure) ∧
    ∃ t r, exec (.init (.setting .g1e8) (.setting .f1e3))
      { beforeInit with params := ⟨false, false, false⟩ } = .next t ∧ t.response = some r ∧
      r.status = .driverFailure ∧ t.calls = [] :=
  ⟨⟨_, _, rfl, rfl, rfl⟩, ⟨_, _, rfl, rfl, by decide⟩, ⟨_, _, rfl, rfl, rfl, rfl⟩⟩
theorem witness_CallsFailAsTheEnvironmentChooses :
    ∃ t c, exec .readGain (failingAfter 1) = .next t ∧ t.calls[1]? = some c ∧ c.result = .failed :=
  ⟨_, _, rfl, rfl, rfl⟩
theorem witness_NoDriverFailureWithoutCause : NoFailure afterP1 ∧ afterP1.params.connected = true ∧
    ∃ t, exec .disableAll afterP1 = .next t := ⟨.inl rfl, rfl, _, rfl⟩
theorem witness_CallsIndependentOfLevels : ∃ t, exec .readGain afterP1 = .next t := ⟨_, rfl⟩
/-- A run that does not fail, and one that fails, with a line that is not the failed write's. -/
theorem witness_LevelsChangeByWritesOnly :
    (∃ t, exec .disableAll afterP1 = .next t ∧ UndisturbedUntil afterP1 t ∧
      status t ≠ some .driverFailure) ∧
    ∃ t p, exec .disableAll (failingAfter 0) = .next t ∧ UndisturbedUntil (failingAfter 0) t ∧
      status t = some .driverFailure ∧ ∀ b, ⟨.write p b, .failed⟩ ∉ t.calls := by
  obtain ⟨t, h, hs⟩ := disable_all_ok
  refine ⟨⟨t, h, .inl rfl, by rw [hs]; decide⟩, ?_⟩
  obtain ⟨t, h, hs⟩ := disable_all_failed
  obtain ⟨ps, u, ok, R⟩ := exec_ran h
  obtain ⟨done, hm⟩ := R.attempts.calls
  have hcalls : t.calls = done := R.calls.trans hm.calls
  cases ok with
  | true => exact ⟨t, .spare, h, .inl rfl, hs, fun b hb => (hm.complete rfl).2 _ (hcalls ▸ hb) rfl⟩
  | false =>
    obtain ⟨pre, c, e, -, hpre⟩ := hm.broken rfl
    have hlast : ∀ p b, ⟨.write p b, .failed⟩ ∈ t.calls → c.prim = .write p b := by
      intro p b hb
      rw [hcalls, e] at hb
      rcases List.mem_append.1 hb with hb | hb
      · exact absurd rfl (hpre _ hb)
      · rw [← List.mem_singleton.1 hb]
    by_cases hc : ∃ b, c.prim = .write .spare b
    · obtain ⟨x, hx⟩ := hc
      exact ⟨t, .line2, h, .inl rfl, hs, fun b hb => by have := hlast _ _ hb; rw [hx] at this; cases this⟩
    · exact ⟨t, .spare, h, .inl rfl, hs, fun b hb => hc ⟨b, hlast _ _ hb⟩⟩
theorem witness_StepRunsDecoded : ({ afterP1 with inputs := [.command 0x300] } : State).inputs =
    .command 0x300 :: [] ∧ decode 0x300 = .ok .readGain := by decide
theorem witness_FetchWordRuns : decodeTableWord 16 0x500 = some .disableAll := by decide
theorem witness_EnvironmentStep :
    ({ disturbedAtThird with inputs := [.disturb .line6 true] } : State).inputs = [.disturb .line6 true] ∧
    disturbedAtThird.params.externalDisturbance = true ∧ afterP1.params.externalDisturbance = false := by
  decide
/-- Each change of phase happens: `INIT` from UNINIT, `DISABLE_ALL` from READY. -/
theorem witness_PhaseTransitions :
    (∃ s', step { beforeInit with inputs := [.command 0x026] } = .next s') ∧
    ∃ s', step { afterP1 with inputs := [.command 0x500] } = .next s' := ⟨⟨_, rfl⟩, ⟨_, rfl⟩⟩
theorem witness_DisabledBehavesAsReady :
    ({ afterP1 with phase := .disabled } : State).phase = .disabled ∧
    (∃ t, exec .readGain { afterP1 with phase := .disabled } = .next t) ∧
    (∃ t, exec .disableAll { afterP1 with phase := .disabled } = .next t ∧ status t = some .ok) ∧
    exec (.init (.setting .g1e8) (.setting .f1e3)) { afterP1 with phase := .disabled } =
      .refused .alreadyInitialized := by
  refine ⟨rfl, ⟨_, rfl⟩, ?_, rfl⟩
  obtain ⟨t, h⟩ : ∃ t, exec .disableAll { afterP1 with phase := .disabled } = .next t := ⟨_, rfl⟩
  refine ⟨t, h, ?_⟩
  obtain ⟨ws, u, ok, -, -, ha, rfl⟩ := execDisableAll_next h
  rw [ha.ok_of_noFailure (.inl rfl)]; rfl
theorem witness_SetupNeverUndone : (∃ s', step { afterP1 with inputs := [.command 0x500] } = .next s') ∧
    ({ afterP1 with inputs := [.command 0x500] } : State).modes.get .line2 = .output := ⟨⟨_, rfl⟩, rfl⟩
theorem witness_OutputsConfiguredKept : OutputsConfigured { afterP1 with inputs := [.command 0x500] } ∧
    ∃ s', step { afterP1 with inputs := [.command 0x500] } = .next s' := ⟨fun _ => by decide, ⟨_, rfl⟩⟩
theorem witness_ControlLinesKept : ControlLinesHeld { afterP1 with inputs := [.command 0x500] } ∧
    QuietBench afterP1 ∧ ∃ s', step { afterP1 with inputs := [.command 0x500] } = .next s' :=
  ⟨fun _ => ⟨fun _ => ⟨rfl, rfl⟩, by decide⟩, ⟨rfl, rfl⟩, ⟨_, rfl⟩⟩
theorem witness_SettingLinesKept : SettingLinesValid { afterP1 with inputs := [.command 0x120] } ∧
    QuietBench afterP1 ∧ ∃ s', step { afterP1 with inputs := [.command 0x120] } = .next s' :=
  ⟨fun _ => ⟨.inr ⟨.g1e8, rfl⟩, .inr ⟨.f1e3, rfl⟩⟩, ⟨rfl, rfl⟩, ⟨_, rfl⟩⟩
theorem witness_LevelsFollowMovesAndWrites : ∃ t, exec .readGain disturbedAtThird = .next t ∧
    (∀ b, ⟨.write .line6 b, .failed⟩ ∉ t.calls) ∧ t.levels.get .line6 = .holds true :=
  ⟨_, rfl, by decide, rfl⟩
/-- The third call reads what the environment has set just before it. -/
theorem witness_ReadCallsReportLevels : ∃ t, exec .readGain disturbedAtThird = .next t ∧
    t.calls[2]? = some ⟨.read .line6, .value true⟩ ∧
    (levelsAfter disturbedAtThird (t.calls.take 2)).get .line6 = .holds false ∧
    movesOf true (disturbedAtThird.environment.drop 2) = [(.line6, true)] := ⟨_, rfl, rfl, rfl, rfl⟩
theorem witness_ReadDecodesItsCalls :
    (∃ t, exec .readGain disturbedAtThird = .next t ∧ status t = some .ok) ∧
    ∃ t, exec .readFilter afterP1 = .next t ∧ status t = some .ok := ⟨⟨_, rfl, rfl⟩, ⟨_, rfl, rfl⟩⟩
/-- Before an `INIT` whose second mode setting will fail. -/
def failingInit : State :=
  { beforeInit with params := ⟨true, false, true⟩, environment := [.quiet, ⟨[], true⟩] }
/-- In one order of the ten lines: the first setting is done, the second fails, the rest are not called. -/
theorem witness_ModesFollowSettings : (∃ t, exec (.init (.setting .g1e8) (.setting .f1e3)) failingInit = .next t) ∧
    (setModeSeq allLines failingInit).state.calls =
      [⟨.setMode .line2, .done⟩, ⟨.setMode .line3, .failed⟩] := ⟨⟨_, rfl⟩, by decide⟩

end Sys2Proof.Tests
end

section
namespace Sys2Proof.Proofs.LineIdentifiers
open Sys2Proof Sys2Proof.Machine

/-- The identifiers an implementation chooses (00_scope.md R4). -/
def openIdents (o : OpenPins) : List Nat := [o.ctrlHigh, o.ctrlLow, o.spare]

theorem nodup_openIdents (o : OpenPins) : (openIdents o).Nodup := by
  obtain ⟨hhl, hhs, hls⟩ := o.distinct
  simp [openIdents, hhl, hhs, hls]

/-- The identifiers of all lines: those of the map (20_memory.md R31), then the open ones. -/
theorem allLines_map_lineIdent :
    allLines.map lineIdent = [2, 3, 4, 5, 6, 7, 9] ++ openIdents Config.openPins := rfl

/-- No value of the open identifiers is used: the constraint of R4 keeps them apart from each other
(`OpenPins.distinct`) and from those of the map (`OpenPins.outside`). -/
theorem nodup_allLines_map_lineIdent : (allLines.map lineIdent).Nodup := by
  have hmap : [2, 3, 4, 5, 6, 7, 9].Nodup := by decide
  have hapart : [2, 3, 4, 5, 6, 7, 9].Disjoint (openIdents Config.openPins) :=
    fun n hn ho => Config.openPins.outside n ho hn
  rw [allLines_map_lineIdent]
  exact hmap.append (nodup_openIdents _) hapart

theorem lineIdent_injective : Function.Injective lineIdent := fun p q h =>
  List.inj_on_of_nodup_map nodup_allLines_map_lineIdent (mem_allLines p) (mem_allLines q) h

/-- Settles O9: the identifiers in `allLines`, which holds every line, have no duplicates. -/
theorem lineIdentifiersDistinct : Obligations.LineIdentifiersDistinct := by
  unfold Obligations.LineIdentifiersDistinct
  have hlength : allLines.length = 10 := rfl
  have hgain : gainPins.map lineIdent = [2, 4, 6] := rfl
  have hfilter : filterPins.map lineIdent = [3, 5, 7, 9] := rfl
  exact ⟨fun _ _ h => lineIdent_injective h, hlength, mem_allLines, hgain, hfilter⟩

end Sys2Proof.Proofs.LineIdentifiers
end

section
namespace Sys2Proof.Proofs.PhaseAndSetup
open Sys2Proof Sys2Proof.Machine

/-! ### The environment between two commands, and what no command undoes -/

@[simp] theorem disturbLine_phase (p : Line) (b : Bool) (s : State) :
    (disturbLine p b s).phase = s.phase := by unfold disturbLine; split <;> rfl

@[simp] theorem disturbLine_modes (p : Line) (b : Bool) (s : State) :
    (disturbLine p b s).modes = s.modes := by unfold disturbLine; split <;> rfl

@[simp] theorem disturbLine_params (p : Line) (b : Bool) (s : State) :
    (disturbLine p b s).params = s.params := by unfold disturbLine; split <;> rfl

theorem exec_params {i : Instr} {s t : State} (h : exec i s = .next t) : t.params = s.params := by
  obtain ⟨ps, u, ok, hran⟩ := exec_ran h
  exact hran.params.trans hran.attempts.params

theorem exec_output_stays {i : Instr} {s t : State} (h : exec i s = .next t) {p : Line}
    (hp : s.modes.get p = .output) : t.modes.get p = .output := by
  obtain ⟨ps, u, ok, hran⟩ := exec_ran h
  rw [hran.modes]
  exact hran.attempts.modes p hp

theorem step_params {s s' : State} (h : step s = .next s') : s'.params = s.params := by
  rcases step_cases h with rfl | ⟨p, b, rfl⟩ | ⟨w, i, -, -, he⟩
  · rfl
  · simp
  · exact exec_params (s := dropInput s) he

theorem step_output_stays {s s' : State} (h : step s = .next s') {p : Line}
    (hp : s.modes.get p = .output) : s'.modes.get p = .output := by
  rcases step_cases h with rfl | ⟨q, b, rfl⟩ | ⟨w, i, -, -, he⟩
  · exact hp
  · simpa using hp
  · exact exec_output_stays he hp

/-! ### Outside UNINIT all ten lines are outputs -/

theorem configured_of_outputs_stay {pins : List Line} {s t : State}
    (hstay : ∀ p, s.modes.get p = .output → t.modes.get p = .output)
    (h : configured pins s = true) : configured pins t = true :=
  configured_iff.2 fun p hp => hstay p (configured_iff.1 h p hp)

/-- The mode settings of `INIT` go through `ALL_LINES` (42_control.md R92). -/
theorem initSteps_configured {tg : GainOperand} {tf : FilterOperand} {s : State}
    (hok : (initSteps tg tf s).ok = true) : configured allLines (initSteps tg tf s).state = true := by
  obtain ⟨ps, c, d, c', d', hps, -, -, hattempts⟩ := initSteps_attempts tg tf s
  refine configured_iff.2 fun p hp => hattempts.modesSet hok p ?_
  have hmem : p ∈ ps := hps.mem_iff.2 hp
  simp [initPrims, hmem]

theorem execInit_configured {tg : GainOperand} {tf : FilterOperand} {s t : State}
    (h : execInit tg tf s = .next t) (ht : t.phase ≠ .uninit) : configured allLines t = true := by
  obtain ⟨hphase, ⟨-, rfl⟩ | ⟨-, rfl⟩⟩ := execInit_next h
  · exact absurd hphase ht
  · cases hok : (initSteps tg tf (startCommand s)).ok with
    | false =>
      obtain ⟨ps, c, d, c', d', -, -, -, hattempts⟩ := initSteps_attempts tg tf (startCommand s)
      rw [conclude_failed hok] at ht
      exact absurd (hattempts.phase.trans hphase) ht
    | true =>
      rw [conclude_ok hok]
      exact initSteps_configured hok

theorem exec_keeps_outputsConfigured {i : Instr} {s t : State} (hs : OutputsConfigured s)
    (h : exec i s = .next t) : OutputsConfigured t := by
  intro ht
  have hstay := configured_of_outputs_stay (pins := allLines) fun p => exec_output_stays h (p := p)
  obtain ⟨ps, u, ok, hran⟩ := exec_ran h
  rcases hran.phase with hsame | ⟨-, -, -, -, tg, tf, rfl⟩ | ⟨hphase, -⟩
  · exact hstay (hs (hsame ▸ ht))
  · exact execInit_configured h ht
  · exact hstay (hs hphase)

/-- Settles O48: an `INIT` that leaves UNINIT has set every mode, and no step takes one back. -/
theorem outputsConfiguredKept : Obligations.OutputsConfiguredKept := by
  unfold Obligations.OutputsConfiguredKept
  intro s s' hs hstep
  rcases step_cases hstep with rfl | ⟨p, b, rfl⟩ | ⟨w, i, -, -, he⟩
  · exact hs
  · simpa [OutputsConfigured, configured] using hs
  · exact exec_keeps_outputsConfigured (s := dropInput s) hs he

/-- Settles O45: a step that is no command keeps the phase, and `Ran.phase` says what a command does. -/
theorem phaseTransitions : Obligations.PhaseTransitions := by
  unfold Obligations.PhaseTransitions
  intro s s' hstep
  rcases step_cases hstep with rfl | ⟨p, b, rfl⟩ | ⟨w, i, hw, hdecode, he⟩
  · exact .inl rfl
  · exact .inl (by simp)
  · obtain ⟨ps, u, ok, hran⟩ := exec_ran he
    rcases hran.phase with hsame | ⟨hs, ht, -, hstatus, tg, tf, rfl⟩ | ⟨hs, ht, -, hstatus, rfl⟩
    · exact .inl hsame
    · exact .inr (.inl ⟨hs, ht, w, tg, tf, hw, hdecode, hstatus⟩)
    · exact .inr (.inr ⟨hs, ht, w, hw, hdecode, hstatus⟩)

/-- Settles O47. -/
theorem setupNeverUndone : Obligations.SetupNeverUndone := by
  unfold Obligations.SetupNeverUndone
  exact fun _ _ hstep => ⟨step_params hstep, fun _ hp => step_output_stays hstep hp⟩

/-- Settles O57: the trace of a command starts empty, so it holds only the calls the command made. -/
theorem modesFollowSettings : Obligations.ModesFollowSettings := by
  unfold Obligations.ModesFollowSettings
  intro i s t h p
  obtain ⟨ps, u, ok, hran⟩ := exec_ran h
  obtain ⟨done, hmade⟩ := hran.attempts.calls
  have hcalls : t.calls = done := hran.calls.trans hmade.calls
  rw [hcalls, hran.modes]
  exact hmade.modes p

end Sys2Proof.Proofs.PhaseAndSetup
end

section
namespace Sys2Proof.Proofs.ResetAndFetch
open Sys2Proof Sys2Proof.Machine

/-- Settles O41. -/
theorem resetValues : Obligations.ResetValues := by
  unfold Obligations.ResetValues
  exact ⟨rfl, PerLine.get_const Mode.unconfigured, PerLine.get_const Level.unspecified⟩

/-- Settles O49: after reset the phase is UNINIT, where the invariant asks nothing. -/
theorem outputsConfiguredAtReset : Obligations.OutputsConfiguredAtReset := by
  unfold Obligations.OutputsConfiguredAtReset
  exact fun hphase => absurd rfl hphase

/-- Settles O51: after reset the phase is neither READY nor DISABLED. -/
theorem controlLinesAtReset : Obligations.ControlLinesAtReset := by
  unfold Obligations.ControlLinesAtReset
  exact fun _ => ⟨nofun, nofun⟩

/-- Settles O53: after reset no line has been written. -/
theorem settingLinesAtReset : Obligations.SettingLinesAtReset := by
  unfold Obligations.SettingLinesAtReset
  have hnever : ∀ pins, NeverWritten pins State.reset.levels := fun _ p _ =>
    PerLine.get_const Level.unspecified p
  exact fun _ => ⟨.inl (hnever gainPins), .inl (hnever filterPins)⟩

theorem step_of_command {s : State} {w : CommandWord} {rest : List Input} {i : Instr}
    (hinputs : s.inputs = .command w :: rest) (hdecode : decode w = .ok i) :
    step s = exec i { s with inputs := rest } := by
  simp [step, nextInput, hinputs, hdecode, dropInput]

/-- Settles O42. -/
theorem stepRunsDecoded : Obligations.StepRunsDecoded := by
  unfold Obligations.StepRunsDecoded
  exact fun _ _ _ _ => step_of_command

theorem decodeTableWord_eq_some {nbits w : Nat} {i : Instr} (h : decodeTableWord nbits w = some i) :
    ∃ c, commandWordOf nbits w = some c ∧ decode c = .ok i := by
  unfold decodeTableWord at h
  cases hword : commandWordOf nbits w with
  | none => simp [hword] at h
  | some c =>
    cases hdecode : decode c with
    | error e => simp [hword, hdecode] at h
    | ok j => simp [hword, hdecode] at h; exact ⟨c, rfl, h ▸ hdecode⟩

/-- Settles O43: the step takes the word that was placed first and leaves the inputs that waited. -/
theorem fetchWordRuns : Obligations.FetchWordRuns := by
  unfold Obligations.FetchWordRuns
  intro s nbits w i h
  obtain ⟨c, hword, hdecode⟩ := decodeTableWord_eq_some h
  have hplaced : s.withFetchWord nbits w = { s with inputs := .command c :: s.inputs } := by
    simp [State.withFetchWord, hword]
  rw [hplaced, step_of_command rfl hdecode]

end Sys2Proof.Proofs.ResetAndFetch
end

section
namespace Sys2Proof.Proofs.CalmCommands
open Sys2Proof Sys2Proof.Machine

/-! ### What an apply leaves on its group -/

/-- What the body of an apply leaves on its group: the pattern asked for, or every level as it was
where the operand asks for none (40_apply.md R71, R72). -/
def GroupAfter (pins : List Line) (v : Option Pattern) (m m' : PerLine Level) : Prop :=
  match v with
  | none => ∀ p ∈ pins, m'.get p = m.get p
  | some v => Holds pins v m'

theorem holds_congr {pins : List Line} {v : Pattern} {m m' : PerLine Level} (h : Holds pins v m)
    (hm : ∀ p ∈ pins, m'.get p = m.get p) : Holds pins v m' :=
  (List.map_congr_left hm).trans h

/-- A group is left the same way when its lines are not touched before and after. -/
theorem GroupAfter.congr {pins : List Line} {v : Option Pattern} {m m' n n' : PerLine Level}
    (h : GroupAfter pins v m m') (hbefore : ∀ p ∈ pins, m.get p = n.get p)
    (hafter : ∀ p ∈ pins, n'.get p = m'.get p) : GroupAfter pins v n n' := by
  cases v with
  | none => exact fun p hp => (hafter p hp).trans ((h p hp).trans (hbefore p hp))
  | some v => exact holds_congr h hafter

theorem calm_startCommand {s : State} (h : Calm s) : Calm (startCommand s) := h

theorem nodup_gainPins : gainPins.Nodup := by decide

theorem nodup_filterPins : filterPins.Nodup := by decide

theorem disjoint_gainPins_filterPins : gainPins.Disjoint filterPins := by simp [gainPins, filterPins]

theorem length_of_gainPattern {o : GainOperand} : ∀ v ∈ gainPattern o, v.length = gainPins.length := by
  cases o with
  | setting g => cases g <;> simp [gainPattern, gainEnc, gainPins]
  | unrecognized x => simp [gainPattern]

theorem length_of_filterPattern {o : FilterOperand} :
    ∀ v ∈ filterPattern o, v.length = filterPins.length := by
  cases o with
  | setting f => cases f <;> simp [filterPattern, filterEnc, filterPins]
  | unrecognized x => simp [filterPattern]

section calm
variable {s : State} (hcalm : Calm s)
include hcalm

theorem applyBody_group_calm {pins : List Line} {v : Option Pattern} (hnodup : pins.Nodup)
    (hlength : ∀ w ∈ v, w.length = pins.length) :
    GroupAfter pins v s.levels (applyBody pins v s).state.levels := by
  cases v with
  | none => exact fun _ _ => rfl
  | some v =>
    refine holds_of_setLines hnodup (hlength v rfl) fun p hp => ?_
    rw [applyBody, applyPattern_levels_calm hcalm]
    by_cases hset : p ∈ setLines pins v <;> simp [hset, hp]

theorem applyBody_outside_calm {pins : List Line} {v : Option Pattern} {p : Line} (hp : p ∉ pins) :
    (applyBody pins v s).state.levels.get p = s.levels.get p := by
  obtain ⟨c, d, hphases, hattempts⟩ := applyBody_attempts pins v s
  exact hattempts.levels hcalm.2.until p fun b hb => hp (hphases.mem_pins hb)

theorem applyBody_calm {pins : List Line} {v : Option Pattern} :
    (applyBody pins v s).ok = true ∧ Calm (applyBody pins v s).state := by
  obtain ⟨c, d, -, hattempts⟩ := applyBody_attempts pins v s
  exact ⟨hattempts.ok_of_noFailure hcalm.1, hcalm.later hattempts.later⟩

theorem applyBody_gain_calm (o : GainOperand) : GroupAfter gainPins (gainPattern o) s.levels
    (applyBody gainPins (gainPattern o) s).state.levels :=
  applyBody_group_calm hcalm nodup_gainPins length_of_gainPattern

theorem applyBody_filter_calm (o : FilterOperand) : GroupAfter filterPins (filterPattern o) s.levels
    (applyBody filterPins (filterPattern o) s).state.levels :=
  applyBody_group_calm hcalm nodup_filterPins length_of_filterPattern

/-! ### The initialization sequence -/

/-- The levels after steps 2 to 4 of the initialization (42_control.md R92). -/
structure InitLevels (tg : GainOperand) (tf : FilterOperand) (m m' : PerLine Level) : Prop where
  ctrlHigh : m'.get .ctrlHigh = .holds true
  ctrlLow : m'.get .ctrlLow = .holds false
  spare : m'.get .spare = m.get .spare
  gain : GroupAfter gainPins (gainPattern tg) m m'
  filter : GroupAfter filterPins (filterPattern tf) m m'

theorem setModeAnyOrder_calm (ps : List Line) :
    (setModeAnyOrder ps s).ok = true ∧ Calm (setModeAnyOrder ps s).state ∧
      (setModeAnyOrder ps s).state.levels = s.levels := by
  obtain ⟨qs, -, hattempts⟩ := setModeAnyOrder_attempts ps s
  refine ⟨hattempts.ok_of_noFailure hcalm.1, hcalm.later hattempts.later, PerLine.eq_of_get fun p => ?_⟩
  exact hattempts.levels hcalm.2.until p (by simp)

theorem writeSeq_calm (ws : List (Line × Bool)) :
    (writeSeq ws s).ok = true ∧ Calm (writeSeq ws s).state ∧
      (writeSeq ws s).state.levels = setLevels ws s.levels := by
  have hattempts := writeSeq_attempts ws s
  exact ⟨hattempts.ok_of_noFailure hcalm.1, hcalm.later hattempts.later, writeSeq_levels_calm hcalm ws⟩

theorem initSteps_ok_calm (tg : GainOperand) (tf : FilterOperand) : (initSteps tg tf s).ok = true := by
  obtain ⟨ps, c, d, c', d', -, -, -, hattempts⟩ := initSteps_attempts tg tf s
  exact hattempts.ok_of_noFailure hcalm.1

end calm

theorem andThen_of_ok {r : Run} (h : r.ok = true) (f : State → Run) : r.andThen f = f r.state :=
  if_pos h

/-- Neither group holds a line of the other, so after both applies each group is as its own left it. -/
theorem applyBoth_levels_calm {s t : State} (hcalm : Calm s) (tg : GainOperand) (tf : FilterOperand)
    (ht : t = (applyBody filterPins (filterPattern tf)
      (applyBody gainPins (gainPattern tg) s).state).state) :
    GroupAfter gainPins (gainPattern tg) s.levels t.levels ∧
      GroupAfter filterPins (filterPattern tf) s.levels t.levels ∧
      LevelsKeptOutside (gainPins ++ filterPins) s t := by
  obtain ⟨-, hcalm'⟩ := applyBody_calm hcalm (pins := gainPins) (v := gainPattern tg)
  have hgain := applyBody_gain_calm hcalm tg
  have hkeep {p : Line} := applyBody_outside_calm hcalm (v := gainPattern tg) (p := p) (pins := gainPins)
  generalize (applyBody gainPins (gainPattern tg) s).state = u at *
  have hfilter := applyBody_filter_calm hcalm' tf
  have hkeep' {p : Line} := applyBody_outside_calm hcalm' (v := filterPattern tf) (p := p) (pins := filterPins)
  rw [← ht] at hfilter hkeep'
  refine ⟨hgain.congr (fun _ _ => rfl) fun p hp => ?_, hfilter.congr (fun p hp => ?_) fun _ _ => rfl,
    fun p hp => ?_⟩
  · exact hkeep' (disjoint_gainPins_filterPins hp)
  · exact hkeep fun hg => disjoint_gainPins_filterPins hg hp
  · rw [List.mem_append, not_or] at hp
    rw [hkeep' hp.2, hkeep hp.1]

/-- The control lines are written before both groups, which hold neither them nor the tenth line. -/
theorem initSteps_levels_calm {s : State} (hcalm : Calm s) (tg : GainOperand) (tf : FilterOperand) :
    InitLevels tg tf s.levels (initSteps tg tf s).state.levels := by
  obtain ⟨hok, hcalm, hlevels⟩ := setModeAnyOrder_calm hcalm allLines
  rw [initSteps, andThen_of_ok hok, ← hlevels]
  generalize (setModeAnyOrder allLines s).state = s1 at *
  obtain ⟨hok, hcalm, hlevels⟩ := writeSeq_calm hcalm controlWrites
  rw [andThen_of_ok hok]
  generalize (writeSeq controlWrites s1).state = s2 at *
  rw [andThen_of_ok (applyBody_calm hcalm).1]
  obtain ⟨hgain, hfilter, hkept⟩ := applyBoth_levels_calm hcalm tg tf rfl
  have hsetting : ∀ p ∈ gainPins ++ filterPins, s2.levels.get p = s1.levels.get p := by
    intro p hp
    rw [hlevels, setLevels_get_of_not_mem]
    revert p
    decide
  rw [LevelsKeptOutside, hlevels] at hkept
  exact ⟨hkept .ctrlHigh (by decide), hkept .ctrlLow (by decide), hkept .spare (by decide),
    hgain.congr (fun p hp => hsetting p (List.mem_append_left _ hp)) fun _ _ => rfl,
    hfilter.congr (fun p hp => hsetting p (List.mem_append_right _ hp)) fun _ _ => rfl⟩

/-- What `INIT` answers where its connection is made and nothing fails or is disturbed. -/
theorem execInit_calm {s : State} {tg : GainOperand} {tf : FilterOperand} (hphase : s.phase = .uninit)
    (hconnected : s.params.connected = true) (hcalm : Calm s) :
    execInit tg tf s = .next
      (respond (settingStatus ((gainPattern tg).isSome && (filterPattern tf).isSome)) 0
        (putPhase .ready (initSteps tg tf (startCommand s)).state)) := by
  have hok : (initSteps tg tf (startCommand s)).ok = true :=
    initSteps_ok_calm (calm_startCommand hcalm) tg tf
  rw [execInit, if_pos hphase, runInit, if_pos (by exact hconnected), conclude_ok hok]

/-- Settles O28: the levels are those of `InitLevels`, and every mode setting was done. -/
theorem initEffect : Obligations.InitEffect := by
  unfold Obligations.InitEffect
  intro s tg tf hphase hconnected hcalm
  have hlevels : InitLevels tg tf s.levels (initSteps tg tf (startCommand s)).state.levels :=
    initSteps_levels_calm (calm_startCommand hcalm) tg tf
  have hrun : exec (.init tg tf) s = _ := execInit_calm hphase hconnected hcalm
  obtain ⟨ps, u, ok, hran⟩ := exec_ran hrun
  refine ⟨_, hrun, rfl, PhaseAndSetup.execInit_configured hrun nofun, hlevels.ctrlHigh, hlevels.ctrlLow,
    ?_, ?_, ?_, ?_, hlevels.spare, PhaseAndSetup.exec_params hrun,
    hran.inputs.trans hran.attempts.inputs, ?_, ?_⟩
  · rintro g rfl; exact hlevels.gain
  · rintro x rfl; exact hlevels.gain
  · rintro f rfl; exact hlevels.filter
  · rintro x rfl; exact hlevels.filter
  · rintro ⟨⟨g, rfl⟩, ⟨f, rfl⟩⟩; rfl
  · rintro (⟨x, rfl⟩ | ⟨x, rfl⟩)
    · rfl
    · cases tg <;> rfl

/-! ### Every command on a calm bench -/

/-- What a command leaves on the control lines and the tenth line, with the phase: all as it was, or
READY with the control lines at (1, 0), or DISABLED with all of them at 0. -/
def ControlAfter (s t : State) : Prop :=
  (t.phase = s.phase ∧ ∀ p ∉ gainPins ++ filterPins, t.levels.get p = s.levels.get p) ∨
  (t.phase = .ready ∧ t.levels.get .ctrlHigh = .holds true ∧ t.levels.get .ctrlLow = .holds false) ∨
  (t.phase = .disabled ∧ ∀ p, t.levels.get p = .holds false)

/-- What every command leaves where nothing fails and nothing is disturbed: each group as some apply
would. -/
structure CalmEffect (s t : State) : Prop where
  gain : ∃ o, GroupAfter gainPins (gainPattern o) s.levels t.levels
  filter : ∃ o, GroupAfter filterPins (filterPattern o) s.levels t.levels
  control : ControlAfter s t

theorem groupAfter_gain_of_kept {m m' : PerLine Level} (h : ∀ p ∈ gainPins, m'.get p = m.get p) :
    ∃ o, GroupAfter gainPins (gainPattern o) m m' := ⟨.unrecognized 0, h⟩

theorem groupAfter_filter_of_kept {m m' : PerLine Level} (h : ∀ p ∈ filterPins, m'.get p = m.get p) :
    ∃ o, GroupAfter filterPins (filterPattern o) m m' := ⟨.unrecognized 0, h⟩

theorem calmEffect_of_kept {s t : State} (hphase : t.phase = s.phase) (hlevels : t.levels = s.levels) :
    CalmEffect s t where
  gain := groupAfter_gain_of_kept fun p _ => by rw [hlevels]
  filter := groupAfter_filter_of_kept fun p _ => by rw [hlevels]
  control := .inl ⟨hphase, fun p _ => by rw [hlevels]⟩

/-- All lines at 0 is the row 1e5 of the gain table and the row 30 of the cutoff table. -/
theorem calmEffect_of_disabled {s t : State} (hphase : t.phase = .disabled)
    (hlevels : ∀ p, t.levels.get p = .holds false) : CalmEffect s t where
  gain := ⟨.setting .g1e5, by simp [GroupAfter, gainPattern, Holds, gainPins, gainEnc, hlevels]⟩
  filter := ⟨.setting .f30, by simp [GroupAfter, filterPattern, Holds, filterPins, filterEnc, hlevels]⟩
  control := .inr (.inr ⟨hphase, hlevels⟩)

theorem applyGroup_phase {pins : List Line} {v : Option Pattern} {s t : State}
    (h : applyGroup pins v s = .next t) : t.phase = s.phase := by
  obtain ⟨c, d, u, ok, -, -, -, hattempts, rfl⟩ := applyGroup_next h
  cases ok <;> exact hattempts.phase

theorem applyGroup_levels {pins : List Line} {v : Option Pattern} {s t : State}
    (h : applyGroup pins v s = .next t) :
    t.levels = (applyBody pins v (startCommand s)).state.levels := by
  obtain ⟨-, rfl⟩ := onOperating_next.1 h
  exact conclude_field State.levels (fun _ => rfl) fun _ => rfl

theorem applyGroup_outside_calm {pins : List Line} {v : Option Pattern} {s t : State} (hcalm : Calm s)
    (h : applyGroup pins v s = .next t) : LevelsKeptOutside pins s t := by
  intro p hp
  rw [applyGroup_levels h]
  exact applyBody_outside_calm (calm_startCommand hcalm) hp

theorem applyGain_calmEffect {o : GainOperand} {s t : State} (hcalm : Calm s)
    (h : execApplyGain o s = .next t) : CalmEffect s t := by
  have houtside := applyGroup_outside_calm hcalm h
  refine ⟨⟨o, ?_⟩, groupAfter_filter_of_kept fun p hp => ?_, .inl ⟨applyGroup_phase h, fun p hp => ?_⟩⟩
  · rw [applyGroup_levels h]
    exact applyBody_gain_calm (calm_startCommand hcalm) o
  · exact houtside p fun hg => disjoint_gainPins_filterPins hg hp
  · exact houtside p fun hg => hp (List.mem_append_left _ hg)

theorem applyFilter_calmEffect {o : FilterOperand} {s t : State} (hcalm : Calm s)
    (h : execApplyFilter o s = .next t) : CalmEffect s t := by
  have houtside := applyGroup_outside_calm hcalm h
  refine ⟨groupAfter_gain_of_kept fun p hp => ?_, ⟨o, ?_⟩, .inl ⟨applyGroup_phase h, fun p hp => ?_⟩⟩
  · exact houtside p fun hf => disjoint_gainPins_filterPins hp hf
  · rw [applyGroup_levels h]
    exact applyBody_filter_calm (calm_startCommand hcalm) o
  · exact houtside p fun hf => hp (List.mem_append_right _ hf)

theorem readGroup_calmEffect {pins : List Line} {f : Pattern → Tag} {s t : State} (hcalm : Calm s)
    (h : readGroup pins f s = .next t) : CalmEffect s t := by
  obtain ⟨u, v, -, hread, hattempts, rfl⟩ := readGroup_next h
  obtain ⟨v', -, -, hlevels⟩ := readSeq_value_calm (calm_startCommand hcalm) pins
  rw [hread] at hlevels
  cases v <;> exact calmEffect_of_kept hattempts.phase hlevels

theorem disableAll_calmEffect {s t : State} (hcalm : Calm s) (h : execDisableAll s = .next t) :
    CalmEffect s t := by
  obtain ⟨-, rfl⟩ := onOperating_next.1 h
  obtain ⟨ws, -, hattempts⟩ := writeAnyOrder_attempts (clearWrites allLines) (startCommand s)
  rw [conclude_ok (hattempts.ok_of_noFailure hcalm.1)]
  refine calmEffect_of_disabled rfl fun p => ?_
  have hbits : ∀ w ∈ clearWrites allLines, w.2 = false := by simp [clearWrites]
  simp [writeAnyOrder_levels_calm (calm_startCommand hcalm) hbits, map_fst_clearWrites, mem_allLines]

theorem init_calmEffect {tg : GainOperand} {tf : FilterOperand} {s t : State} (hcalm : Calm s)
    (h : execInit tg tf s = .next t) : CalmEffect s t := by
  obtain ⟨hphase, ⟨-, rfl⟩ | ⟨hconnected, -⟩⟩ := execInit_next h
  · exact calmEffect_of_kept rfl rfl
  · have hlevels : InitLevels tg tf s.levels (initSteps tg tf (startCommand s)).state.levels :=
      initSteps_levels_calm (calm_startCommand hcalm) tg tf
    rw [execInit_calm hphase hconnected hcalm] at h
    cases h
    exact ⟨⟨tg, hlevels.gain⟩, ⟨tf, hlevels.filter⟩, .inr (.inl ⟨rfl, hlevels.ctrlHigh, hlevels.ctrlLow⟩)⟩

theorem exec_calmEffect {i : Instr} {s t : State} (hcalm : Calm s) (h : exec i s = .next t) :
    CalmEffect s t := by
  cases i with
  | applyGain o => exact applyGain_calmEffect hcalm h
  | applyFilter o => exact applyFilter_calmEffect hcalm h
  | readGain => exact readGroup_calmEffect hcalm h
  | readFilter => exact readGroup_calmEffect hcalm h
  | disableAll => exact disableAll_calmEffect hcalm h
  | init tg tf => exact init_calmEffect hcalm h
  | idn => cases h; exact calmEffect_of_kept rfl rfl

/-! ### The invariants of a quiet bench -/

theorem disturbLine_levels_quiet {s : State} (hquiet : QuietBench s) (p : Line) (b : Bool) :
    (disturbLine p b s).levels = s.levels := by simp [disturbLine, hquiet.2]

theorem step_quietBench {s s' : State} (h : step s = .next s') (hquiet : QuietBench s') :
    QuietBench s := by
  unfold QuietBench at *
  rwa [PhaseAndSetup.step_params h] at hquiet

/-- On a quiet bench a move of the environment has no effect, so a step changes what a command does. -/
theorem step_calmEffect {s s' : State} (hquiet : QuietBench s) (h : step s = .next s') :
    CalmEffect s s' := by
  rcases step_cases h with rfl | ⟨p, b, rfl⟩ | ⟨w, i, -, -, he⟩
  · exact calmEffect_of_kept rfl rfl
  · exact calmEffect_of_kept (PhaseAndSetup.disturbLine_phase p b _)
      (disturbLine_levels_quiet (s := dropInput s) hquiet p b)
  · obtain ⟨hgain, hfilter, hcontrol⟩ := exec_calmEffect (s := dropInput s) hquiet.calm he
    exact ⟨hgain, hfilter, hcontrol⟩

/-- Settles O50: what a command leaves on the control lines is, in each case of `ControlAfter`, what the
invariant asks for in the phase it leaves. -/
theorem controlLinesKept : Obligations.ControlLinesKept := by
  unfold Obligations.ControlLinesKept
  intro s s' hs hstep hquiet'
  have hquiet := step_quietBench hstep hquiet'
  obtain ⟨hready, hdisabled⟩ := hs hquiet
  rcases (step_calmEffect hquiet hstep).control with ⟨hphase, hkept⟩ | ⟨hphase, hh, hl⟩ | ⟨hphase, hzero⟩
  · have hhigh : s'.levels.ctrlHigh = s.levels.ctrlHigh := hkept .ctrlHigh (by decide)
    have hlow : s'.levels.ctrlLow = s.levels.ctrlLow := hkept .ctrlLow (by decide)
    have hspare : s'.levels.spare = s.levels.spare := hkept .spare (by decide)
    rw [hphase, hhigh, hlow, hspare]
    exact ⟨hready, hdisabled⟩
  · exact ⟨fun _ => ⟨hh, hl⟩, fun h => absurd (hphase.symm.trans h) (by decide)⟩
  · exact ⟨fun h => absurd (hphase.symm.trans h) (by decide),
      fun _ => ⟨hzero .ctrlHigh, hzero .ctrlLow, hzero .spare⟩⟩

/-- A group stays never written or at a row where an operand asks for a row or for nothing. -/
theorem GroupAfter.keeps_valid {α : Type} {pins : List Line} {enc : α → Pattern} {v : Option Pattern}
    {m m' : PerLine Level} (h : GroupAfter pins v m m') (hrow : ∀ w ∈ v, ∃ x, enc x = w)
    (hvalid : NeverWritten pins m ∨ ∃ x, Holds pins (enc x) m) :
    NeverWritten pins m' ∨ ∃ x, Holds pins (enc x) m' := by
  cases v with
  | none =>
    rcases hvalid with hnever | ⟨x, hx⟩
    · exact .inl fun p hp => (h p hp).trans (hnever p hp)
    · exact .inr ⟨x, holds_congr hx h⟩
  | some v =>
    obtain ⟨x, rfl⟩ := hrow v rfl
    exact .inr ⟨x, h⟩

theorem row_of_gainPattern {o : GainOperand} : ∀ w ∈ gainPattern o, ∃ g, gainEnc g = w := by
  cases o <;> simp [gainPattern]

theorem row_of_filterPattern {o : FilterOperand} : ∀ w ∈ filterPattern o, ∃ f, filterEnc f = w := by
  cases o <;> simp [filterPattern]

/-- Settles O52: on a quiet bench every command leaves each group as it was or at a row of its table. -/
theorem settingLinesKept : Obligations.SettingLinesKept := by
  unfold Obligations.SettingLinesKept
  intro s s' hs hstep hquiet'
  have hquiet := step_quietBench hstep hquiet'
  obtain ⟨hgain, hfilter⟩ := hs hquiet
  obtain ⟨⟨xg, hxg⟩, ⟨xf, hxf⟩, -⟩ := step_calmEffect hquiet hstep
  exact ⟨hxg.keeps_valid row_of_gainPattern hgain, hxf.keeps_valid row_of_filterPattern hfilter⟩

end Sys2Proof.Proofs.CalmCommands
end

section
namespace Sys2Proof.Proofs.ReadRows
open Sys2Proof Sys2Proof.Machine

/-! ### A read of known levels, undisturbed -/

/-- A read that did not fail moves no level where the environment set none, and reports a known one. -/
theorem lineRead_known {p : Line} {s : State} {b x : Bool} (hread : (lineRead p s).2 = some b)
    (hundisturbed : UndisturbedUntil s (lineRead p s).1) :
    (lineRead p s).1.levels = s.levels ∧ (s.levels.get p = .holds x → b = x) := by
  have hmoves : callDisturbs s = [] := by
    refine hundisturbed.callDisturbs ?_
    unfold lineRead
    split <;> rfl
  unfold lineRead at hread ⊢
  by_cases hfails : callFails s = true
  · simp [hfails] at hread
  · simp only [hfails, beginCall_levels, hmoves, setLevels, beginCall_draws] at hread ⊢
    refine ⟨by simp [hmoves, setLevels], fun hx => ?_⟩
    rw [hx] at hread
    exact (Option.some.inj hread).symm

/-- A read of a group that did not fail reports the pattern the group holds. -/
theorem readSeq_eq_of_holds {pins : List Line} {s u : State} {v w : Pattern}
    (hread : readSeq pins s = (u, some v)) (hundisturbed : UndisturbedUntil s u)
    (hholds : Holds pins w s.levels) : v = w := by
  induction pins generalizing s v w with
  | nil =>
    have hw : w = [] := List.map_eq_nil_iff.1 hholds.symm
    cases hread
    exact hw.symm
  | cons p ps ih =>
    cases w with
    | nil => simp [Holds] at hholds
    | cons x w =>
      obtain ⟨hx, hw⟩ : s.levels.get p = .holds x ∧ Holds ps w s.levels := by
        simpa [Holds] using hholds
      have hlater := (lineRead_attempts p s).later
      cases hline : (lineRead p s).2 with
      | none => simp [readSeq, hline] at hread
      | some b =>
        obtain ⟨v', hrest, rfl⟩ : ∃ v', readSeq ps (lineRead p s).1 = (u, some v') ∧ b :: v' = v := by
          simp only [readSeq, hline, Prod.mk.injEq, Option.map_eq_some_iff] at hread
          obtain ⟨hu, v', hv', hcons⟩ := hread
          exact ⟨v', Prod.ext hu hv', hcons⟩
        have hlater' : Later (lineRead p s).1 u := by
          simpa [hrest] using (readSeq_attempts ps (lineRead p s).1).later
        obtain ⟨hlevels, hbit⟩ := lineRead_known (x := x) hline (hundisturbed.before hlater hlater')
        rw [hbit hx, ih hrest (hundisturbed.after hlater hlater') (by rwa [hlevels])]

/-! ### The tag a read answers -/

/-- A decoder that looks a pattern up among the rows of a table answers the sentinel exactly for no row,
and a row's tag only for that row. -/
theorem tag_of_lookup {α : Type} {all : List α} {enc : α → Pattern} {tag : α → Tag}
    (hall : ∀ x, x ∈ all) (hne : ∀ x, tag x ≠ 0) (hinj : Function.Injective tag) {v : Pattern} {t : Tag}
    (ht : t = (all.find? fun x => enc x == v).elim 0 tag) :
    (t = 0 ↔ ∀ x, enc x ≠ v) ∧ ∀ x, t = tag x → enc x = v := by
  cases hfind : all.find? (fun x => enc x == v) with
  | none =>
    have hnorow : ∀ x, enc x ≠ v := fun x => by simpa using List.find?_eq_none.1 hfind x (hall x)
    have hzero : t = 0 := by rw [ht, hfind]; rfl
    exact ⟨⟨fun _ => hnorow, fun _ => hzero⟩, fun x hx => absurd (hx.symm.trans hzero) (hne x)⟩
  | some y =>
    have hrow : enc y = v := by simpa using List.find?_some hfind
    have htag : t = tag y := by rw [ht, hfind]; rfl
    refine ⟨⟨fun h0 => absurd (htag.symm.trans h0) (hne y), fun h => absurd hrow (h y)⟩, fun x hx => ?_⟩
    rw [hinj (hx.symm.trans htag), hrow]

theorem gainTag_eq_elim (o : Option GainSetting) : gainTag o = o.elim 0 GainSetting.tag := by
  cases o <;> rfl

theorem filterTag_eq_elim (o : Option FilterSetting) : filterTag o = o.elim 0 FilterSetting.tag := by
  cases o <;> rfl

theorem gainTag_gainDec {v : Pattern} {t : Tag} (ht : t = gainTag (gainDec v)) :
    (t = 0 ↔ ∀ g, gainEnc g ≠ v) ∧ ∀ g, t = gainTag (some g) → gainEnc g = v := by
  rw [gainTag_eq_elim] at ht
  have hall : ∀ g, g ∈ GainSetting.all := fun g => by cases g <;> decide
  have hne : ∀ g : GainSetting, g.tag ≠ 0 := fun g => by cases g <;> decide
  have hinj : Function.Injective GainSetting.tag := fun g k => by
    cases g <;> cases k <;> simp [GainSetting.tag]
  exact tag_of_lookup hall hne hinj ht

theorem filterTag_filterDec {v : Pattern} {t : Tag} (ht : t = filterTag (filterDec v)) :
    (t = 0 ↔ ∀ f, filterEnc f ≠ v) ∧ ∀ f, t = filterTag (some f) → filterEnc f = v := by
  rw [filterTag_eq_elim] at ht
  have hall : ∀ f, f ∈ FilterSetting.all := fun f => by cases f <;> decide
  have hne : ∀ f : FilterSetting, f.tag ≠ 0 := fun f => by cases f <;> decide
  have hinj : Function.Injective FilterSetting.tag := fun f k => by
    cases f <;> cases k <;> simp [FilterSetting.tag]
  exact tag_of_lookup hall hne hinj ht

theorem readGroup_ok_of_holds {pins : List Line} {decoded : Pattern → Tag} {s t : State} {v : Pattern}
    {x : Tag} (hundisturbed : UndisturbedUntil s t) (hholds : Holds pins v s.levels)
    (h : readGroup pins decoded s = .next t) (hok : t.response = some ⟨.ok, x, none⟩) :
    x = decoded v := by
  obtain ⟨u, r, -, hread, -, rfl⟩ := readGroup_next h
  cases r with
  | none => simp at hok
  | some w =>
    have hw : w = v := readSeq_eq_of_holds hread hundisturbed hholds
    simpa [hw, eq_comm] using hok

/-- Settles O23: an undisturbed read that responds OK decodes what its lines hold. -/
theorem readNeverCoerces : Obligations.ReadNeverCoerces := by
  unfold Obligations.ReadNeverCoerces
  refine ⟨fun s t v x hundisturbed hholds h hok => ?_, fun s t v x hundisturbed hholds h hok => ?_⟩
  · exact gainTag_gainDec (readGroup_ok_of_holds hundisturbed hholds h hok)
  · exact filterTag_filterDec (readGroup_ok_of_holds hundisturbed hholds h hok)

end Sys2Proof.Proofs.ReadRows
end

section
namespace Sys2Proof.Proofs.PhaseBlindness
open Sys2Proof Sys2Proof.Machine

/-! ### No primitive call looks at the phase -/

/-- The run with another phase in its state. -/
def Run.withPhase (ph : Phase) (r : Run) : Run := ⟨putPhase ph r.state, r.ok⟩

/-- Calls that neither look at the phase nor change it. -/
def PhaseBlind (f : State → Run) : Prop := ∀ ph s, f (putPhase ph s) = Run.withPhase ph (f s)

theorem PhaseBlind.andThen {f g : State → Run} (hf : PhaseBlind f) (hg : PhaseBlind g) :
    PhaseBlind fun s => (f s).andThen g := by
  intro ph s
  simp only [hf ph s]
  unfold Run.andThen Run.withPhase
  cases hok : (f s).ok with
  | true => exact hg ph (f s).state
  | false => simp [hok]

theorem lineWrite_phaseBlind (p : Line) (b : Bool) : PhaseBlind (lineWrite p b) := by
  intro ph s
  have hfails : callFails (putPhase ph s) = callFails s := rfl
  unfold lineWrite
  rw [hfails]
  cases callFails s <;> rfl

theorem lineRead_putPhase (p : Line) (ph : Phase) (s : State) :
    lineRead p (putPhase ph s) = (putPhase ph (lineRead p s).1, (lineRead p s).2) := by
  have hfails : callFails (putPhase ph s) = callFails s := rfl
  unfold lineRead
  rw [hfails]
  cases callFails s <;> rfl

theorem writeSeq_phaseBlind (ws : List (Line × Bool)) : PhaseBlind (writeSeq ws) := by
  induction ws with
  | nil => exact fun _ _ => rfl
  | cons w ws ih => exact (lineWrite_phaseBlind w.1 w.2).andThen ih

theorem readSeq_putPhase (ps : List Line) (ph : Phase) (s : State) :
    readSeq ps (putPhase ph s) = (putPhase ph (readSeq ps s).1, (readSeq ps s).2) := by
  induction ps generalizing s with
  | nil => rfl
  | cons p ps ih =>
    simp only [readSeq, lineRead_putPhase, ih]
    cases (lineRead p s).2 <;> rfl

theorem writeAnyOrder_phaseBlind (ws : List (Line × Bool)) : PhaseBlind (writeAnyOrder ws) :=
  fun ph s => writeSeq_phaseBlind (arrange s.draws ws) ph (spend ws.length s)

theorem applyBody_phaseBlind (pins : List Line) (v : Option Pattern) : PhaseBlind (applyBody pins v) := by
  cases v with
  | none => exact fun _ _ => rfl
  | some v =>
    exact (writeAnyOrder_phaseBlind (clearWrites pins)).andThen
      (writeAnyOrder_phaseBlind (setWrites pins v))

/-! ### The commands of the operating phases -/

/-- The outcome with another state in place of the next one. -/
def mapNext (f : State → State) : Result → Result
  | .next t => .next (f t)
  | .fault r => .fault r
  | .refused r => .refused r

/-- Outside UNINIT the admission test does not tell the phases apart. -/
theorem onOperating_putPhase {pins : List Line} {s : State} {ph : Phase} {body : State → State}
    {f : State → State} (hs : s.phase ≠ .uninit) (hph : ph ≠ .uninit)
    (hbody : body (putPhase ph (startCommand s)) = f (body (startCommand s))) :
    onOperating pins (putPhase ph s) body = mapNext f (onOperating pins s body) := by
  have hconfigured : configured pins (putPhase ph s) = configured pins s := rfl
  have hstart : startCommand (putPhase ph s) = putPhase ph (startCommand s) := rfl
  unfold onOperating
  rw [putPhase_phase, if_neg hph, if_neg hs, hconfigured, hstart, hbody]
  cases configured pins s <;> rfl

theorem conclude_withPhase {ph : Phase} {r : Run} {finish : State → State}
    (hfinish : finish (putPhase ph r.state) = putPhase ph (finish r.state)) :
    conclude (Run.withPhase ph r) finish = putPhase ph (conclude r finish) := by
  cases hok : r.ok with
  | true => simpa [conclude, Run.withPhase, hok] using hfinish
  | false => simp [conclude, Run.withPhase, hok]; rfl

/-- What another phase makes of the answer `t` of a command: it has that phase, but for a `DISABLE_ALL`
that responds OK, which sets the phase itself (42_control.md R90). -/
def answerInPhase (ph : Phase) (i : Instr) (t : State) : State :=
  if i = .disableAll ∧ status t = some .ok then t else putPhase ph t

theorem answerInPhase_of_ne {i : Instr} (hi : i ≠ .disableAll) (ph : Phase) :
    answerInPhase ph i = putPhase ph := by
  funext t
  simp [answerInPhase, hi]

section phases
variable {s : State} {ph : Phase} (hs : s.phase ≠ .uninit) (hph : ph ≠ .uninit)
include hs hph

theorem applyGroup_putPhase (pins : List Line) (v : Option Pattern) :
    applyGroup pins v (putPhase ph s) = mapNext (putPhase ph) (applyGroup pins v s) := by
  refine onOperating_putPhase hs hph ?_
  rw [applyBody_phaseBlind pins v ph (startCommand s)]
  exact conclude_withPhase rfl

theorem readGroup_putPhase (pins : List Line) (decoded : Pattern → Tag) :
    readGroup pins decoded (putPhase ph s) = mapNext (putPhase ph) (readGroup pins decoded s) := by
  refine onOperating_putPhase hs hph ?_
  simp only [readSeq_putPhase]
  cases (readSeq pins (startCommand s)).2 <;> rfl

theorem execDisableAll_putPhase :
    execDisableAll (putPhase ph s) = mapNext (answerInPhase ph .disableAll) (execDisableAll s) := by
  refine onOperating_putPhase hs hph ?_
  rw [writeAnyOrder_phaseBlind (clearWrites allLines) ph (startCommand s)]
  generalize writeAnyOrder (clearWrites allLines) (startCommand s) = r
  obtain ⟨u, ok⟩ := r
  cases ok <;> rfl

/-- A command answers the same in any two operating phases, but for the phase it leaves. -/
theorem exec_putPhase (i : Instr) :
    exec i (putPhase ph s) = mapNext (answerInPhase ph i) (exec i s) := by
  by_cases hi : i = .disableAll
  · subst hi
    exact execDisableAll_putPhase hs hph
  rw [answerInPhase_of_ne hi]
  cases i with
  | applyGain o => exact applyGroup_putPhase hs hph gainPins (gainPattern o)
  | applyFilter o => exact applyGroup_putPhase hs hph filterPins (filterPattern o)
  | readGain => exact readGroup_putPhase hs hph gainPins _
  | readFilter => exact readGroup_putPhase hs hph filterPins _
  | disableAll => exact absurd rfl hi
  | init tg tf =>
    have hrefused : ∀ u : State, u.phase ≠ .uninit →
        exec (.init tg tf) u = .refused .alreadyInitialized := fun u hu => if_neg hu
    rw [hrefused s hs, hrefused (putPhase ph s) hph]
    rfl
  | idn => rfl

end phases

theorem exec_phase_of_disabled {i : Instr} {s t : State} (hs : s.phase = .disabled)
    (h : exec i s = .next t) : t.phase = .disabled := by
  obtain ⟨ps, u, ok, hran⟩ := exec_ran h
  rcases hran.phase with hsame | ⟨huninit, -⟩ | ⟨-, ht, -⟩
  · exact hsame.trans hs
  · exact absurd (hs.symm.trans huninit) (by decide)
  · exact ht

/-- Settles O46, by `exec_putPhase` from DISABLED to READY. -/
theorem disabledBehavesAsReady : Obligations.DisabledBehavesAsReady := by
  unfold Obligations.DisabledBehavesAsReady
  intro i s hs
  have hne : s.phase ≠ .uninit := by rw [hs]; decide
  have hready : exec i { s with phase := .ready } = mapNext (answerInPhase .ready i) (exec i s) :=
    exec_putPhase hne (by decide) i
  refine ⟨fun t ht => ?_, fun r hr => by rw [hready, hr]; rfl⟩
  rw [hready, ht, mapNext, answerInPhase]
  refine ⟨fun hdone => by rw [if_pos hdone], fun hdone => ⟨exec_phase_of_disabled hs ht, ?_⟩⟩
  rw [if_neg hdone]
  rfl

end Sys2Proof.Proofs.PhaseBlindness
end

section
namespace Sys2Proof.Proofs.LineSpace
open Sys2Proof Sys2Proof.Machine

/-! ### The levels and the moves of the environment -/

theorem setLevels_append (ws vs : List (Line × Bool)) (m : PerLine Level) :
    setLevels (ws ++ vs) m = setLevels vs (setLevels ws m) := by
  induction ws generalizing m with
  | nil => rfl
  | cons w ws ih => exact ih _

/-- Settles O58: the last set of a move is made on what the sets before it leave. -/
theorem lineSpaceLaws : Obligations.LineSpaceLaws := by
  unfold Obligations.LineSpaceLaws
  refine ⟨PerLine.get_set, fun _ => rfl, fun ws p q b m => ?_⟩
  rw [setLevels_append]
  exact PerLine.get_set (setLevels ws m) p q (.holds b)

theorem step_of_disturb {s : State} {p : Line} {b : Bool} {rest : List Input}
    (hinputs : s.inputs = .disturb p b :: rest) :
    step s = .next (disturbLine p b { s with inputs := rest }) := by
  simp [step, nextInput, hinputs, dropInput]

/-- Settles O44: `disturbLine` asks for the parameter before it sets the level. -/
theorem environmentStep : Obligations.EnvironmentStep := by
  unfold Obligations.EnvironmentStep
  intro s p b rest hinputs
  rw [step_of_disturb hinputs]
  exact ⟨fun hmay => congrArg _ (if_pos hmay), fun hnot => congrArg _ (if_neg (by simp [hnot]))⟩

/-! ### What a `LineWrite` does (20_memory.md R34) -/

theorem lineWrite_ok (p : Line) (b : Bool) (s : State) : (lineWrite p b s).ok = !callFails s := by
  unfold lineWrite
  cases callFails s <;> rfl

theorem lineWrite_environment (p : Line) (b : Bool) (s : State) :
    (lineWrite p b s).state.environment = s.environment.tail := by
  unfold lineWrite
  cases callFails s <;> rfl

/-- The environment moves, then the one line is set: to the bit, or to what a failed write leaves. -/
theorem lineWrite_levels (p : Line) (b : Bool) (s : State) :
    (lineWrite p b s).state.levels = (setLevels (callDisturbs s) s.levels).set p
      (if callFails s then failedLevel s.draws ((setLevels (callDisturbs s) s.levels).get p)
        else .holds b) := by
  unfold lineWrite
  cases callFails s <;> rfl

theorem lineWrite_get_of_ok {p : Line} {b : Bool} {s : State} (hok : (lineWrite p b s).ok = true) :
    (lineWrite p b s).state.levels.get p = .holds b := by
  have hfails : callFails s = false := by simpa [lineWrite_ok] using hok
  simp [lineWrite_levels, hfails]

theorem lineWrite_get_of_failed {p : Line} {b : Bool} {s : State} (hok : (lineWrite p b s).ok = false) :
    (lineWrite p b s).state.levels.get p =
      failedLevel s.draws ((setLevels (callDisturbs s) s.levels).get p) := by
  have hfails : callFails s = true := by simpa [lineWrite_ok] using hok
  simp [lineWrite_levels, hfails]

theorem failedLevel_of_known {n : Nat} {l : Level} (h : l ≠ .unspecified) :
    ∃ x, failedLevel n l = .holds x := by
  cases l with
  | unspecified => exact absurd rfl h
  | holds b => exact ⟨_, rfl⟩

/-- Settles O11, by the equations of `lineWrite`. -/
theorem lineWriteEffect : Obligations.LineWriteEffect := by
  unfold Obligations.LineWriteEffect
  rintro s p b m rfl
  have hattempts := lineWrite_attempts p b s
  refine ⟨lineWrite_ok p b s, lineWrite_get_of_ok, fun hok => ?_, fun q hq => ?_,
    hattempts.modesKept (by simp), hattempts.phase, lineWrite_environment p b s⟩
  · rw [lineWrite_get_of_failed hok]
    exact ⟨fun hunknown => by rw [hunknown]; rfl, failedLevel_of_known⟩
  · rw [lineWrite_levels, PerLine.get_set_other _ _ hq]

/-! ### What a `LineRead` does (20_memory.md R35) -/

theorem lineRead_value (p : Line) (s : State) : (lineRead p s).2 =
    if callFails s then none
      else some (readLevel s.draws ((setLevels (callDisturbs s) s.levels).get p)) := by
  unfold lineRead
  cases callFails s <;> rfl

theorem lineRead_levels (p : Line) (s : State) :
    (lineRead p s).1.levels = setLevels (callDisturbs s) s.levels := by
  unfold lineRead
  cases callFails s <;> rfl

theorem lineRead_environment (p : Line) (s : State) :
    (lineRead p s).1.environment = s.environment.tail := by
  unfold lineRead
  cases callFails s <;> rfl

theorem readLevel_reports (n : Nat) (l : Level) : l = .unspecified ∨ l = .holds (readLevel n l) := by
  cases l with
  | unspecified => exact .inl rfl
  | holds b => exact .inr rfl

/-- Settles O13, by the equations of `lineRead`. -/
theorem lineReadEffect : Obligations.LineReadEffect := by
  unfold Obligations.LineReadEffect
  rintro s p m rfl
  have hattempts := lineRead_attempts p s
  refine ⟨fun hfails => ?_, fun hfails => ⟨_, ?_, readLevel_reports s.draws _⟩, lineRead_levels p s,
    hattempts.modesKept (by simp), hattempts.phase, lineRead_environment p s⟩
  · rw [lineRead_value, if_pos hfails]
  · rw [lineRead_value, if_neg (by simp [hfails])]

/-! ### A read after a write -/

theorem runPrim_attempts (a : Prim) (s : State) :
    Attempts [a] s (runPrim a s).state (runPrim a s).ok := by
  cases a with
  | setMode p => exact lineSetMode_attempts p s
  | write p b => exact lineWrite_attempts p b s
  | read p => exact lineRead_attempts p s

theorem runPrims_attempts (ps : List Prim) (s : State) :
    Attempts ps s (runPrims ps s).state (runPrims ps s).ok := by
  induction ps generalizing s with
  | nil => exact .nil s
  | cons a ps ih => exact (runPrim_attempts a s).andThen ih

/-- An undisturbed read of a known level that does not fail reports it. -/
theorem lineRead_eq_of_holds {p : Line} {b : Bool} {s : State} (hfails : callFails s = false)
    (hundisturbed : UndisturbedUntil s (lineRead p s).1) (hholds : s.levels.get p = .holds b) :
    (lineRead p s).2 = some b := by
  have hmoves : callDisturbs s = [] := hundisturbed.callDisturbs (lineRead_environment p s)
  simp [lineRead_value, hfails, hmoves, setLevels, hholds, readLevel]

/-- Settles O12: undisturbed calls of which none writes the line keep the bit on it. -/
theorem readAfterWrite : Obligations.ReadAfterWrite := by
  unfold Obligations.ReadAfterWrite
  rintro s t u p b between hbetween rfl hwrite rfl - hfails hundisturbed
  have hattempts := runPrims_attempts between (lineWrite p b s).state
  have hread := (lineRead_attempts p (runPrims between (lineWrite p b s).state).state).later
  refine lineRead_eq_of_holds hfails (hundisturbed.after hattempts.later hread) ?_
  rw [hattempts.levels (hundisturbed.before hattempts.later hread) p hbetween]
  exact lineWrite_get_of_ok hwrite

end Sys2Proof.Proofs.LineSpace
end

section
namespace Sys2Proof.Proofs.CommandTraces
open Sys2Proof Sys2Proof.Machine

/-! ### The trace of a command is the account of its calls -/

/-- `Made` speaks of the trace, the environment, the levels and the modes of the state after the calls. -/
theorem Made.congr {ps : List Prim} {s t u : State} {ok : Bool} {done : List Call}
    (h : Made ps s u ok done) (hcalls : t.calls = u.calls) (hlevels : t.levels = u.levels)
    (hmodes : t.modes = u.modes) (henvironment : t.environment = u.environment) :
    Made ps s t ok done where
  calls := hcalls.trans h.calls
  environment := henvironment.trans h.environment
  begins := h.begins
  complete := h.complete
  broken := h.broken
  fails := h.fails
  levels := hlevels ▸ h.levels
  results := h.results
  reads := h.reads
  modes := hmodes ▸ h.modes

/-- The trace a command leaves holds all its calls, and one that did not go to its end responds
DRIVER_FAILURE. -/
theorem exec_made {i : Instr} {s t : State} (h : exec i s = .next t) :
    ∃ ps ok, Made ps (startCommand s) t ok t.calls ∧ (ok = false → status t = some .driverFailure) := by
  obtain ⟨ps, u, ok, hran⟩ := exec_ran h
  obtain ⟨done, hmade⟩ := hran.attempts.calls
  have hcalls : t.calls = done := hran.calls.trans hmade.calls
  refine ⟨ps, ok, hcalls ▸ Made.congr hmade hran.calls hran.levels hran.modes hran.environment,
    fun hfailed => ?_⟩
  rw [status, (hran.failed hfailed).2]
  rfl

/-- Settles O54. -/
theorem levelsFollowMovesAndWrites : Obligations.LevelsFollowMovesAndWrites := by
  unfold Obligations.LevelsFollowMovesAndWrites
  intro i s t h p hp
  obtain ⟨ps, ok, hmade, -⟩ := exec_made h
  exact hmade.levels p hp

/-- Settles O55. -/
theorem readCallsReportLevels : Obligations.ReadCallsReportLevels := by
  unfold Obligations.ReadCallsReportLevels
  rintro i s t k p b m h hcall rfl
  obtain ⟨ps, ok, hmade, -⟩ := exec_made h
  exact List.mem_pair.1 (hmade.reads k p b hcall)

/-- Settles O40: undisturbed, the moves and the writes of the trace come to the writes alone, and only a
command that responds DRIVER_FAILURE has a failed write. -/
theorem levelsChangeByWritesOnly : Obligations.LevelsChangeByWritesOnly := by
  unfold Obligations.LevelsChangeByWritesOnly
  intro i s t hundisturbed h
  obtain ⟨ps, ok, hmade, hfailed⟩ := exec_made h
  have hlines : ∀ p, (∀ b, ⟨.write p b, .failed⟩ ∉ t.calls) →
      t.levels.get p = (replay t.calls s.levels).get p :=
    fun p hp => hmade.levels_undisturbed hundisturbed hp
  refine ⟨hlines, fun hstatus => PerLine.eq_of_get fun p => hlines p fun b hwrite => ?_⟩
  have hok : ok = true := Bool.eq_true_of_not_eq_false fun hfalse => hstatus (hfailed hfalse)
  exact (hmade.complete hok).2 _ hwrite rfl

/-! ### The admission test -/

theorem onOperating_unconfigured {pins : List Line} {s : State} {body : State → State}
    (hphase : s.phase ≠ .uninit) (h : configured pins s = false) :
    onOperating pins s body = .refused .lineNotConfigured := by
  rw [onOperating, if_neg hphase, if_neg (by simp [h])]

theorem applyGroup_unconfigured {pins : List Line} {v : Pattern} {s : State} (hphase : s.phase ≠ .uninit)
    (h : configured pins s = false) : applyGroup pins (some v) s = .refused .lineNotConfigured := by
  rw [applyGroup, Option.isSome_some, if_pos rfl, onOperating_unconfigured hphase h]

theorem readGroup_unconfigured {pins : List Line} {decoded : Pattern → Tag} {s : State}
    (hphase : s.phase ≠ .uninit) (h : configured pins s = false) :
    readGroup pins decoded s = .refused .lineNotConfigured := by
  rw [readGroup, onOperating_unconfigured hphase h]

theorem execDisableAll_unconfigured {s : State} (hphase : s.phase ≠ .uninit)
    (h : configured allLines s = false) : execDisableAll s = .refused .lineNotConfigured := by
  rw [execDisableAll, onOperating_unconfigured hphase h]

/-- Settles O35: each of these commands puts the lines it would use to the admission test. -/
theorem unconfiguredLinesRefused : Obligations.UnconfiguredLinesRefused := by
  unfold Obligations.UnconfiguredLinesRefused
  intro s hphase
  refine ⟨fun hgain => ⟨fun g => ?_, ?_⟩, fun hfilter => ⟨fun f => ?_, ?_⟩, fun hall => ?_⟩
  · exact applyGroup_unconfigured hphase hgain
  · exact readGroup_unconfigured hphase hgain
  · exact applyGroup_unconfigured hphase hfilter
  · exact readGroup_unconfigured hphase hfilter
  · exact execDisableAll_unconfigured hphase hall

end Sys2Proof.Proofs.CommandTraces
end

section
namespace Sys2Proof.Proofs.OpcodeMap
open Sys2Proof Sys2Proof.Machine

/-! ### A command word is its three fields (30_encoding.md R58) -/

@[simp] theorem opField_append (op a b : BitVec 4) : opField (op ++ a ++ b) = op := by
  rw [opField, BitVec.extractLsb'_append_eq_of_le (by decide)]
  exact BitVec.extractLsb'_append_eq_left

@[simp] theorem aField_append (op a b : BitVec 4) : aField (op ++ a ++ b) = a := by
  rw [aField, BitVec.extractLsb'_append_eq_of_le (by decide)]
  exact BitVec.extractLsb'_append_eq_right

@[simp] theorem bField_append (op a b : BitVec 4) : bField (op ++ a ++ b) = b :=
  BitVec.extractLsb'_append_eq_right

theorem append_fields (w : CommandWord) : opField w ++ aField w ++ bField w = w := by
  have hlow : aField w ++ bField w = w.extractLsb' 0 8 :=
    BitVec.extractLsb'_append_extractLsb'_eq_extractLsb' rfl
  rw [BitVec.append_assoc, hlow]
  exact BitVec.extractLsb'_append_extractLsb'

theorem exists_fields (w : CommandWord) : ∃ op a b : BitVec 4, w = op ++ a ++ b :=
  ⟨_, _, _, (append_fields w).symm⟩

theorem word_eq_iff_fields {w x : CommandWord} :
    w = x ↔ opField w = opField x ∧ aField w = aField x ∧ bField w = bField x := by
  refine ⟨fun h => h ▸ ⟨rfl, rfl, rfl⟩, fun ⟨hop, ha, hb⟩ => ?_⟩
  rw [← append_fields w, hop, ha, hb, append_fields]

theorem opField_and (w m : CommandWord) : opField (w &&& m) = opField w &&& opField m :=
  BitVec.extractLsb'_and

theorem aField_and (w m : CommandWord) : aField (w &&& m) = aField w &&& aField m :=
  BitVec.extractLsb'_and

theorem bField_and (w m : CommandWord) : bField (w &&& m) = bField w &&& bField m :=
  BitVec.extractLsb'_and

/-! ### The rows of the opcode map (R59) -/

theorem selects_iff {r : OpRow} {w : CommandWord} : r.selects w = true ↔ w &&& r.mask = r.pattern :=
  beq_iff_eq

/-- A word that two rows select has both patterns where both masks look. -/
theorem patterns_agree {r r' : OpRow} {w : CommandWord} (h : r.selects w = true)
    (h' : r'.selects w = true) : r.pattern &&& r'.mask = r'.pattern &&& r.mask := by
  rw [← selects_iff.1 h, ← selects_iff.1 h', BitVec.and_assoc, BitVec.and_assoc,
    BitVec.and_comm r.mask]

/-- Settles O4: where both masks look, the patterns of any two rows differ. -/
theorem opcodeRowsDisjoint : Obligations.OpcodeRowsDisjoint := by
  unfold Obligations.OpcodeRowsDisjoint
  have hdiffer : opRows.Pairwise fun r r' => r.pattern &&& r'.mask ≠ r'.pattern &&& r.mask := by decide
  exact hdiffer.imp fun hne w ⟨h, h'⟩ => hne (patterns_agree h h')

theorem row_unique {r r' : OpRow} {w : CommandWord} (hr : r ∈ opRows) (hr' : r' ∈ opRows)
    (h : r.selects w = true) (h' : r'.selects w = true) : r = r' := by
  by_contra hne
  have : Std.Symm fun r r' : OpRow => ∀ w, ¬ (r.selects w = true ∧ r'.selects w = true) :=
    ⟨fun _ _ hdisjoint w hw => hdisjoint w hw.symm⟩
  exact opcodeRowsDisjoint.forall hr hr' hne w ⟨h, h'⟩

/-- Since no word selects two rows, the decoder runs the row that the word selects, whatever the order
of the rows. -/
theorem decode_eq_ok_iff {w : CommandWord} {i : Instr} : decode w = .ok i ↔
    ∃ r ∈ opRows, r.selects w = true ∧ r.build (aField w) (bField w) = i := by
  unfold decode
  cases hfind : opRows.find? (fun r => r.selects w) with
  | none =>
    have hnone := List.find?_eq_none.1 hfind
    simp only [reduceCtorEq, false_iff]
    rintro ⟨r, hr, hselects, -⟩
    exact hnone r hr hselects
  | some r =>
    have hr := List.mem_of_find?_eq_some hfind
    have hselects := List.find?_some (p := fun r : OpRow => r.selects w) hfind
    simp only [Except.ok.injEq]
    refine ⟨fun h => ⟨r, hr, hselects, h⟩, ?_⟩
    rintro ⟨r', hr', hselects', rfl⟩
    rw [row_unique hr hr' hselects hselects']

/-! ### The rows field by field -/

theorem selects_append_iff {r : OpRow} {op a b : BitVec 4} : r.selects (op ++ a ++ b) = true ↔
    op &&& opField r.mask = opField r.pattern ∧
      a &&& aField r.mask = aField r.pattern ∧ b &&& bField r.mask = bField r.pattern := by
  rw [selects_iff, word_eq_iff_fields, opField_and, aField_and, bField_and, opField_append,
    aField_append, bField_append]

/-- A mask is 0 or 15 on each field: a row asks for a field's value or leaves it open. -/
@[simp] theorem and_fifteen (x : BitVec 4) : x &&& 15#4 = x := BitVec.and_allOnes

/-- The decoder field by field: what each row asks of the fields, and the command it builds of them. -/
theorem decode_append_eq_ok_iff {op a b : BitVec 4} {i : Instr} : decode (op ++ a ++ b) = .ok i ↔
    (op = 0x1#4 ∧ b = 0x0#4 ∧ i = .applyGain (gainOperandOf a)) ∨
    (op = 0x2#4 ∧ a = 0x0#4 ∧ i = .applyFilter (filterOperandOf b)) ∨
    (op = 0x3#4 ∧ a = 0x0#4 ∧ b = 0x0#4 ∧ i = .readGain) ∨
    (op = 0x4#4 ∧ a = 0x0#4 ∧ b = 0x0#4 ∧ i = .readFilter) ∨
    (op = 0x5#4 ∧ a = 0x0#4 ∧ b = 0x0#4 ∧ i = .disableAll) ∨
    (op = 0x0#4 ∧ i = .init (gainOperandOf a) (filterOperandOf b)) ∨
    (op = 0x6#4 ∧ a = 0x0#4 ∧ b = 0x0#4 ∧ i = .idn) := by
  rw [decode_eq_ok_iff, aField_append, bField_append]
  simp only [opRows, List.exists_mem_cons_iff, selects_append_iff]
  simp [opField, aField, bField, and_assoc, eq_comm (a := i)]

/-! ### Tags and operands (R61) -/

theorem gainOperandOf_tag {o : GainOperand} (h : o.wf = true) : gainOperandOf o.tag = o := by
  cases o with
  | setting g => cases g <;> rfl
  | unrecognized t => revert t; decide

theorem filterOperandOf_tag {o : FilterOperand} (h : o.wf = true) : filterOperandOf o.tag = o := by
  cases o with
  | setting f => cases f <;> rfl
  | unrecognized t => revert t; decide

@[simp] theorem tag_gainOperandOf (t : Tag) : (gainOperandOf t).tag = t := by revert t; decide

@[simp] theorem tag_filterOperandOf (t : Tag) : (filterOperandOf t).tag = t := by revert t; decide

@[simp] theorem wf_gainOperandOf (t : Tag) : (gainOperandOf t).wf = true := by revert t; decide

@[simp] theorem wf_filterOperandOf (t : Tag) : (filterOperandOf t).wf = true := by revert t; decide

/-! ### The two directions of the encoding -/

/-- Settles O1: the word of a command has the fields that the command's own row asks for, and the row
reads the operands back from them. -/
theorem decodeOfEncode : Obligations.DecodeOfEncode := by
  unfold Obligations.DecodeOfEncode
  intro i hwf
  cases i with
  | applyGain t => exact decode_append_eq_ok_iff.2 (by simp [gainOperandOf_tag hwf])
  | applyFilter t => exact decode_append_eq_ok_iff.2 (by simp [filterOperandOf_tag hwf])
  | readGain => exact decode_append_eq_ok_iff.2 (by simp)
  | readFilter => exact decode_append_eq_ok_iff.2 (by simp)
  | disableAll => exact decode_append_eq_ok_iff.2 (by simp)
  | init tg tf =>
    obtain ⟨htg, htf⟩ := Bool.and_eq_true_iff.1 hwf
    exact decode_append_eq_ok_iff.2 (by simp [gainOperandOf_tag htg, filterOperandOf_tag htf])
  | idn => exact decode_append_eq_ok_iff.2 (by simp)

/-- Settles O2: each row fixes every field that it does not read as an operand. -/
theorem encodeOfDecode : Obligations.EncodeOfDecode := by
  unfold Obligations.EncodeOfDecode
  intro w i h
  obtain ⟨op, a, b, rfl⟩ := exists_fields w
  rcases decode_append_eq_ok_iff.1 h with ⟨rfl, rfl, rfl⟩ | ⟨rfl, rfl, rfl⟩ | ⟨rfl, rfl, rfl, rfl⟩ |
    ⟨rfl, rfl, rfl, rfl⟩ | ⟨rfl, rfl, rfl, rfl⟩ | ⟨rfl, rfl⟩ | ⟨rfl, rfl, rfl, rfl⟩
  · exact ⟨wf_gainOperandOf a, by rw [encode, tag_gainOperandOf]⟩
  · exact ⟨wf_filterOperandOf b, by rw [encode, tag_filterOperandOf]⟩
  · exact ⟨rfl, rfl⟩
  · exact ⟨rfl, rfl⟩
  · exact ⟨rfl, rfl⟩
  · exact ⟨Bool.and_eq_true_iff.2 ⟨wf_gainOperandOf a, wf_filterOperandOf b⟩,
      by rw [encode, tag_gainOperandOf, tag_filterOperandOf]⟩
  · exact ⟨rfl, rfl⟩

/-! ### Illegal words (R63) -/

/-- A word decodes exactly where it is not illegal field by field. -/
theorem exists_decode_iff {w : CommandWord} : (∃ i, decode w = .ok i) ↔ ¬ IllegalWord w := by
  obtain ⟨op, a, b, rfl⟩ := exists_fields w
  simp only [decode_append_eq_ok_iff, exists_or, exists_and_left, exists_eq, and_true, IllegalWord,
    opField_append, aField_append, bField_append]
  bv_omega

theorem step_of_error {s : State} {w : CommandWord} {rest : List Input} {e : DecodeError}
    (hinputs : s.inputs = .command w :: rest) (hdecode : decode w = .error e) :
    step s = .refused .illegalCommand := by
  simp [step, nextInput, hinputs, hdecode]

/-- Settles O3: a row that selected an illegal word would decode it. -/
theorem illegalWordsRefused : Obligations.IllegalWordsRefused := by
  unfold Obligations.IllegalWordsRefused
  intro w
  refine ⟨fun hillegal => ?_, exists_decode_iff.2⟩
  have hno : ∀ i, decode w ≠ .ok i := fun i hi => exists_decode_iff.1 ⟨i, hi⟩ hillegal
  refine ⟨fun r hr => ?_, hno, fun s rest hinputs => ?_⟩
  · exact Bool.eq_false_of_not_eq_true fun hselects =>
      hno _ (decode_eq_ok_iff.2 ⟨r, hr, hselects, rfl⟩)
  · cases hdecode : decode w with
    | ok i => exact absurd hdecode (hno i)
    | error e => exact step_of_error hinputs hdecode

/-- Settles O5: the legal words are the words of their commands, the illegal ones select no row. -/
theorem sampleWordsDecode : Obligations.SampleWordsDecode := by
  unfold Obligations.SampleWordsDecode
  decide

end Sys2Proof.Proofs.OpcodeMap
end

section
namespace Sys2Proof.Proofs.SettingTables
open Sys2Proof Sys2Proof.Machine

theorem gainDec_gainEnc (g : GainSetting) : gainDec (gainEnc g) = some g := by cases g <;> rfl

theorem filterDec_filterEnc (f : FilterSetting) : filterDec (filterEnc f) = some f := by
  cases f <;> rfl

/-- A decoder that looks a pattern up among the rows of a table, and finds every row where it stands,
answers a setting exactly for that setting's row. -/
theorem lookup_eq_some_iff {α : Type} {all : List α} {enc : α → Pattern}
    (hfinds : ∀ x, all.find? (fun y => enc y == enc x) = some x) {v : Pattern} {x : α} :
    all.find? (fun y => enc y == v) = some x ↔ enc x = v := by
  refine ⟨fun h => ?_, ?_⟩
  · simpa using List.find?_some h
  · rintro rfl
    exact hfinds x

theorem gainDec_eq_some_iff (v : Pattern) (g : GainSetting) : gainDec v = some g ↔ gainEnc g = v :=
  lookup_eq_some_iff gainDec_gainEnc

theorem filterDec_eq_some_iff (v : Pattern) (f : FilterSetting) :
    filterDec v = some f ↔ filterEnc f = v :=
  lookup_eq_some_iff filterDec_filterEnc

/-- Settles O6: the decoder is the reverse of the table; the rest is finite, over the vectors. -/
theorem gainDecoderMap : Obligations.GainDecoderMap := by
  unfold Obligations.GainDecoderMap
  exact ⟨gainDec_eq_some_iff, by decide, by decide⟩

/-- Settles O7, in the same way. -/
theorem filterDecoderMap : Obligations.FilterDecoderMap := by
  unfold Obligations.FilterDecoderMap
  exact ⟨filterDec_eq_some_iff, by decide, by decide⟩

theorem packed_gainEnc (g : GainSetting) : packed (gainEnc g) + (gainTag (some g)).toNat = 5 := by
  cases g <;> rfl

theorem packed_filterEnc (f : FilterSetting) :
    packed (filterEnc f) + (filterTag (some f)).toNat = 9 := by
  cases f <;> rfl

/-- Settles O8: laws (a) and (b) are the two directions of the lookup. -/
theorem codecLaws : Obligations.CodecLaws := by
  unfold Obligations.CodecLaws
  exact ⟨fun g => ⟨gainDec_gainEnc g, packed_gainEnc g⟩, fun v g => (gainDec_eq_some_iff v g).1,
    fun f => ⟨filterDec_filterEnc f, packed_filterEnc f⟩, fun v f => (filterDec_eq_some_iff v f).1⟩

end Sys2Proof.Proofs.SettingTables
end

section
namespace Sys2Proof.Proofs.Responses
open Sys2Proof Sys2Proof.Machine

theorem responseWord_status (r : Response) : (responseWord r).extractLsb' 4 2 = statusCode r.status :=
  BitVec.extractLsb'_append_eq_left

theorem responseWord_val (r : Response) : (responseWord r).extractLsb' 0 4 = r.val :=
  BitVec.extractLsb'_append_eq_right

theorem statusCode_ne_three (st : Status) : statusCode st ≠ 3 := by cases st <;> decide

/-- Settles O10. -/
theorem responseWordLayout : Obligations.ResponseWordLayout := by
  unfold Obligations.ResponseWordLayout
  refine ⟨rfl, rfl, rfl, fun r => ⟨responseWord_status r, responseWord_val r, ?_⟩⟩
  rw [responseWord_status]
  exact statusCode_ne_three r.status

/-- An apply that asks for no pattern uses no line, so it passes the admission test whatever the modes
are (60_exceptions.md R106). -/
theorem applyGroup_none {pins : List Line} {s : State} (hphase : s.phase ≠ .uninit) :
    applyGroup pins none s = .next (respond .warnUnrecognized 0 (startCommand s)) :=
  if_neg hphase

/-- Settles O16: an unrecognized tag asks for no pattern. -/
theorem unrecognizedApplyWarns : Obligations.UnrecognizedApplyWarns := by
  unfold Obligations.UnrecognizedApplyWarns
  exact fun s tag hphase => ⟨applyGroup_none hphase, applyGroup_none hphase⟩

end Sys2Proof.Proofs.Responses
end

section
namespace Sys2Proof.Proofs.ApplyCommands
open Sys2Proof Sys2Proof.Machine Sys2Proof.Proofs.CalmCommands

/-! ### In every run: what an apply leaves unchanged, and the order of its writes -/

section runs
variable {pins : List Line} {v : Option Pattern} {s t : State} (h : applyGroup pins v s = .next t)
include h

/-- The calls of an apply are writes to its own group, and its response changes nothing but the response. -/
theorem applyGroup_frame :
    t.phase = s.phase ∧ SameSetup s t ∧ (UndisturbedUntil s t → LevelsKeptOutside pins s t) := by
  obtain ⟨c, d, u, ok, -, -, hphases, hattempts, rfl⟩ := applyGroup_next h
  have hsetup : SameSetup s u :=
    ⟨hattempts.modesKept (setMode_not_mem_writePrims _), hattempts.params, hattempts.inputs⟩
  have hkept : UndisturbedUntil s u → LevelsKeptOutside pins s u := fun hundisturbed p hp =>
    hattempts.levels hundisturbed p fun b hb => hp (hphases.mem_pins hb)
  cases ok <;> exact ⟨hattempts.phase, hsetup, hkept⟩

/-- Only a failed call keeps an apply from the end of its writes, and then it does not respond OK. -/
theorem applyGroup_prims : ∃ c d, ClearThenSet pins v c d ∧ prims t <+: writePrims (c ++ d) ∧
    (status t = some .ok → prims t = writePrims (c ++ d)) := by
  obtain ⟨c, d, u, ok, -, -, hphases, hattempts, rfl⟩ := applyGroup_next h
  obtain ⟨done, hmade⟩ := hattempts.calls
  have hprims : prims u = done.map Call.prim := congrArg (List.map Call.prim) hmade.calls
  have hbegins : prims u <+: writePrims (c ++ d) := hprims ▸ hmade.begins
  refine ⟨c, d, hphases, ?_⟩
  cases ok with
  | true => exact ⟨hbegins, fun _ => hprims.trans (hmade.complete rfl).1⟩
  | false => exact ⟨hbegins, fun hok => by simp [status] at hok⟩

end runs

/-- Settles O18. -/
theorem applyFrame : Obligations.ApplyFrame := by
  unfold Obligations.ApplyFrame
  exact ⟨fun _ _ _ h => applyGroup_frame h, fun _ _ _ h => applyGroup_frame h⟩

/-- Settles O17. -/
theorem applyClearsThenSets : Obligations.ApplyClearsThenSets := by
  unfold Obligations.ApplyClearsThenSets
  exact ⟨fun _ _ _ h => applyGroup_prims h, fun _ _ _ h => applyGroup_prims h⟩

/-! ### Where nothing fails and nothing is disturbed: an apply of a recognized setting -/

/-- The frame of the apply, with its pattern on the group and the response OK, since every write was made. -/
theorem applyGroup_calm {pins : List Line} {v : Pattern} {s : State} (hoperating : Operating pins s)
    (hcalm : Calm s) (hnodup : pins.Nodup) (hlength : v.length = pins.length) :
    ∃ t, applyGroup pins (some v) s = .next t ∧ Holds pins v t.levels ∧ LevelsKeptOutside pins s t ∧
      t.phase = s.phase ∧ SameSetup s t ∧ t.response = some ⟨.ok, 0, none⟩ := by
  have hrun : applyGroup pins (some v) s = .next _ := onOperating_next.2 ⟨hoperating, rfl⟩
  have hgroup : GroupAfter pins (some v) s.levels (applyBody pins (some v) (startCommand s)).state.levels :=
    applyBody_group_calm (calm_startCommand hcalm) hnodup (by simpa using hlength)
  have hok : (applyBody pins (some v) (startCommand s)).ok = true :=
    (applyBody_calm (calm_startCommand hcalm)).1
  obtain ⟨hphase, hsetup, hkept⟩ := applyGroup_frame hrun
  refine ⟨_, hrun, ?_, hkept hcalm.2.until, hphase, hsetup, ?_⟩
  · rw [applyGroup_levels hrun]
    exact hgroup
  · rw [conclude_ok hok]
    rfl

/-- Settles O14: the rows of the gain table have one bit for each gain line. -/
theorem applyGainEffect : Obligations.ApplyGainEffect := by
  unfold Obligations.ApplyGainEffect
  intro s g hoperating hcalm
  exact applyGroup_calm hoperating hcalm nodup_gainPins (length_of_gainPattern (o := .setting g) _ rfl)

/-- Settles O15: the rows of the cutoff table have one bit for each filter line. -/
theorem applyFilterEffect : Obligations.ApplyFilterEffect := by
  unfold Obligations.ApplyFilterEffect
  intro s f hoperating hcalm
  exact applyGroup_calm hoperating hcalm nodup_filterPins
    (length_of_filterPattern (o := .setting f) _ rfl)

end Sys2Proof.Proofs.ApplyCommands
end

section
namespace Sys2Proof.Proofs.ReadCommands
open Sys2Proof Sys2Proof.Machine

/-! ### The bits a group of reads reports, and its trace -/

/-- The trace of reads that did not fail: each line with the bit it reported. -/
def readCalls (pins : List Line) (v : Pattern) : List Call :=
  List.zipWith (fun p b => ⟨.read p, .value b⟩) pins v

theorem lineRead_calls {p : Line} {s : State} {b : Bool} (hread : (lineRead p s).2 = some b) :
    (lineRead p s).1.calls = s.calls ++ [⟨.read p, .value b⟩] := by
  rw [LineSpace.lineRead_value] at hread
  cases hfails : callFails s with
  | true => simp [hfails] at hread
  | false =>
    have hbit : readLevel s.draws ((setLevels (callDisturbs s) s.levels).get p) = b := by
      simpa [hfails] using hread
    simp [lineRead, hfails, hbit]

/-- Reads that do not fail are a first read, then the others from the state it leaves. -/
theorem readSeq_cons_of_value {p : Line} {ps : List Line} {s : State} {v : Pattern}
    (hread : (readSeq (p :: ps) s).2 = some v) : ∃ b w, v = b :: w ∧ (lineRead p s).2 = some b ∧
      (readSeq ps (lineRead p s).1).2 = some w ∧
      (readSeq (p :: ps) s).1 = (readSeq ps (lineRead p s).1).1 := by
  simp only [readSeq] at hread ⊢
  cases hline : (lineRead p s).2 with
  | none => simp [hline] at hread
  | some b =>
    obtain ⟨w, hw, rfl⟩ : ∃ w, (readSeq ps (lineRead p s).1).2 = some w ∧ b :: w = v := by
      simpa [hline] using hread
    exact ⟨b, w, rfl, rfl, hw, rfl⟩

theorem readSeq_calls {pins : List Line} {s : State} {v : Pattern}
    (hread : (readSeq pins s).2 = some v) : v.length = pins.length ∧
      (readSeq pins s).1.calls = s.calls ++ readCalls pins v := by
  induction pins generalizing s v with
  | nil =>
    obtain rfl : [] = v := by simpa [readSeq] using hread
    simp [readSeq, readCalls]
  | cons p ps ih =>
    obtain ⟨b, w, rfl, hline, hrest, hstate⟩ := readSeq_cons_of_value hread
    obtain ⟨hlength, hcalls⟩ := ih hrest
    refine ⟨by simp [hlength], ?_⟩
    rw [hstate, hcalls, lineRead_calls hline]
    simp [readCalls]

theorem prims_readCalls {pins : List Line} {v : Pattern} (hlength : v.length = pins.length) :
    (readCalls pins v).map Call.prim = pins.map .read := by
  induction pins generalizing v with
  | nil => simp [readCalls]
  | cons p ps ih =>
    cases v with
    | nil => simp at hlength
    | cons b w =>
      have hrest := ih (v := w) (by simpa using hlength)
      simpa [readCalls] using hrest

/-! ### What a read of a group answers -/

/-- The response to the bits reported, or to a failed call (41_read.md R80, R81). -/
def readResponse (decoded : Pattern → Tag) : Option Pattern → Response
  | none => ⟨.driverFailure, 0, none⟩
  | some v => ⟨.ok, decoded v, none⟩

theorem exists_readGroup_next {pins : List Line} {decoded : Pattern → Tag} {s : State}
    (hoperating : Operating pins s) : ∃ t, readGroup pins decoded s = .next t :=
  ⟨_, onOperating_next.2 ⟨hoperating, rfl⟩⟩

section runs
variable {pins : List Line} {decoded : Pattern → Tag} {s t : State}
  (h : readGroup pins decoded s = .next t)
include h

theorem readGroup_response :
    t.response = some (readResponse decoded (readSeq pins (startCommand s)).2) := by
  obtain ⟨u, r, -, hread, -, rfl⟩ := readGroup_next h
  rw [hread]
  cases r <;> rfl

theorem readGroup_calls : t.calls = (readSeq pins (startCommand s)).1.calls := by
  obtain ⟨u, r, -, hread, -, rfl⟩ := readGroup_next h
  rw [hread]
  cases r <;> rfl

theorem readGroup_later : Later s t := by
  obtain ⟨u, r, -, -, hattempts, rfl⟩ := readGroup_next h
  cases r <;> exact hattempts.later

/-- A read makes only read calls, and its response changes nothing but the response. -/
theorem readGroup_frame :
    t.phase = s.phase ∧ SameSetup s t ∧ (UndisturbedUntil s t → t.levels = s.levels) := by
  obtain ⟨u, r, -, -, hattempts, rfl⟩ := readGroup_next h
  have hsetup : SameSetup s u :=
    ⟨hattempts.modesKept (by simp), hattempts.params, hattempts.inputs⟩
  have hkept : UndisturbedUntil s u → u.levels = s.levels := fun hundisturbed =>
    PerLine.eq_of_get fun p => hattempts.levels hundisturbed p (by simp)
  cases r <;> exact ⟨hattempts.phase, hsetup, hkept⟩

/-- Only a failed call keeps a read from answering OK with the decode of the bits reported. -/
theorem readGroup_of_not_failed (hstatus : status t ≠ some .driverFailure) :
    ∃ v, (readSeq pins (startCommand s)).2 = some v ∧ t.response = some ⟨.ok, decoded v, none⟩ := by
  have hresponse := readGroup_response h
  cases hread : (readSeq pins (startCommand s)).2 with
  | none =>
    rw [hread] at hresponse
    exact absurd (by rw [status, hresponse]; rfl) hstatus
  | some v => exact ⟨v, rfl, by rw [hresponse, hread]; rfl⟩

/-- A read that responds OK has read each line of its group once and decodes what they reported. -/
theorem readGroup_decodes (hok : status t = some .ok) : ∃ v, v.length = pins.length ∧
    t.calls = readCalls pins v ∧ t.response = some ⟨.ok, decoded v, none⟩ := by
  obtain ⟨v, hread, hresponse⟩ := readGroup_of_not_failed h (by simp [hok])
  obtain ⟨hlength, hcalls⟩ := readSeq_calls hread
  exact ⟨v, hlength, (readGroup_calls h).trans hcalls, hresponse⟩

end runs

/-- Settles O22. -/
theorem readFrame : Obligations.ReadFrame := by
  unfold Obligations.ReadFrame
  rintro s t i (rfl | rfl) h <;> exact readGroup_frame h

/-- Settles O56: a group of three lines reports three bits, one of four lines reports four. -/
theorem readDecodesItsCalls : Obligations.ReadDecodesItsCalls := by
  unfold Obligations.ReadDecodesItsCalls
  refine ⟨fun s t h hok => ?_, fun s t h hok => ?_⟩
  · obtain ⟨v, hlength, hcalls, hresponse⟩ := readGroup_decodes h hok
    obtain ⟨a, b, c, rfl⟩ := List.length_eq_three.1 hlength
    exact ⟨a, b, c, hcalls, hresponse⟩
  · obtain ⟨v, hlength, hcalls, hresponse⟩ := readGroup_decodes h hok
    obtain ⟨a, b, c, d, rfl⟩ := List.length_eq_four.1 hlength
    exact ⟨a, b, c, d, hcalls, hresponse⟩

/-! ### Where nothing fails and nothing is disturbed -/

theorem readGroup_calm {pins : List Line} {decoded : Pattern → Tag} {s : State}
    (hoperating : Operating pins s) (hcalm : Calm s) :
    ∃ t v, readGroup pins decoded s = .next t ∧ Reads (pins.map s.levels.get) v ∧
      t.response = some ⟨.ok, decoded v, none⟩ ∧ prims t = pins.map .read ∧
      t.levels = s.levels ∧ t.phase = s.phase ∧ SameSetup s t := by
  obtain ⟨t, h⟩ := exists_readGroup_next (decoded := decoded) hoperating
  have hstart : Calm (startCommand s) := hcalm
  obtain ⟨v, hread, hreads, -⟩ := readSeq_value_calm hstart pins
  obtain ⟨hlength, hcalls⟩ := readSeq_calls hread
  obtain ⟨hphase, hsetup, hkept⟩ := readGroup_frame h
  refine ⟨t, v, h, hreads, ?_, ?_, hkept hcalm.2.until, hphase, hsetup⟩
  · rw [readGroup_response h, hread]
    rfl
  · rw [prims, readGroup_calls h, hcalls]
    exact prims_readCalls hlength

/-- Settles O20. -/
theorem readGainEffect : Obligations.ReadGainEffect := by
  unfold Obligations.ReadGainEffect
  exact fun s hoperating hcalm => readGroup_calm hoperating hcalm

/-- Settles O21. -/
theorem readFilterEffect : Obligations.ReadFilterEffect := by
  unfold Obligations.ReadFilterEffect
  exact fun s hoperating hcalm => readGroup_calm hoperating hcalm

/-! ### Lines outside the group -/

/-- A move of the environment makes equal levels of a line equal again. -/
theorem setLevels_get_congr {p : Line} {m n : PerLine Level} (ws : List (Line × Bool))
    (hm : m.get p = n.get p) : (setLevels ws m).get p = (setLevels ws n).get p := by
  induction ws generalizing m n with
  | nil => exact hm
  | cons w ws ih => exact ih (by rw [PerLine.get_set, PerLine.get_set, hm])

/-- Other levels of the other lines stay on those lines and change nothing else that a read does. -/
theorem lineRead_withLevels {p : Line} {s : State} {m : PerLine Level}
    (hm : m.get p = s.levels.get p) : lineRead p { s with levels := m } =
      ({ (lineRead p s).1 with levels := setLevels (callDisturbs s) m }, (lineRead p s).2) := by
  have hmoved := setLevels_get_congr (callDisturbs s) hm
  have hfails : callFails { s with levels := m } = callFails s := rfl
  have hbegin : beginCall { s with levels := m } =
      { beginCall s with levels := setLevels (callDisturbs s) m } := rfl
  unfold lineRead
  cases hcase : callFails s with
  | true => simp [hfails, hcase, hbegin, recordCall]
  | false => simp [hfails, hcase, hbegin, hmoved, recordCall, spend]

theorem readSeq_value_congr {pins : List Line} {s : State} {m : PerLine Level}
    (hm : ∀ p ∈ pins, m.get p = s.levels.get p) :
    (readSeq pins { s with levels := m }).2 = (readSeq pins s).2 := by
  induction pins generalizing s m with
  | nil => rfl
  | cons p ps ih =>
    have hrest := ih (s := (lineRead p s).1) (m := setLevels (callDisturbs s) m) fun q hq => by
      rw [LineSpace.lineRead_levels]
      exact setLevels_get_congr _ (hm q (List.mem_cons_of_mem _ hq))
    simp only [readSeq, lineRead_withLevels (hm p List.mem_cons_self), hrest]
    cases (lineRead p s).2 <;> rfl

theorem readGroup_response_congr {pins : List Line} {decoded : Pattern → Tag} {s t : State}
    {m : PerLine Level} (hm : ∀ p ∈ pins, m.get p = s.levels.get p)
    (h : readGroup pins decoded s = .next t) :
    ∃ u, readGroup pins decoded { s with levels := m } = .next u ∧ u.response = t.response := by
  obtain ⟨hoperating, -⟩ := onOperating_next.1 h
  have hoperating' : Operating pins { s with levels := m } := hoperating
  obtain ⟨u, hu⟩ := exists_readGroup_next (decoded := decoded) hoperating'
  have hvalue := readSeq_value_congr (s := startCommand s) hm
  refine ⟨u, hu, ?_⟩
  rw [readGroup_response hu, readGroup_response h, ← hvalue]
  rfl

/-- Settles O25. -/
theorem readSeesOwnGroupOnly : Obligations.ReadSeesOwnGroupOnly := by
  unfold Obligations.ReadSeesOwnGroupOnly
  exact ⟨fun _ _ _ hm h => readGroup_response_congr hm h,
    fun _ _ _ hm h => readGroup_response_congr hm h⟩

end Sys2Proof.Proofs.ReadCommands
end

section
namespace Sys2Proof.Proofs.RoundTrip
open Sys2Proof Sys2Proof.Machine Sys2Proof.Proofs.CalmCommands Sys2Proof.Proofs.ReadCommands

/-! ### An apply that completed left its pattern on the group -/

/-- Writes that all succeeded come to setting their bits one after the other. -/
theorem replay_of_writes {ws : List (Line × Bool)} {cs : List Call} (m : PerLine Level)
    (hprims : cs.map Call.prim = writePrims ws) (hdone : ∀ c ∈ cs, c.result = .done) :
    replay cs m = setLevels ws m := by
  induction ws generalizing cs m with
  | nil =>
    obtain rfl : cs = [] := List.map_eq_nil_iff.1 hprims
    rfl
  | cons w ws ih =>
    obtain ⟨⟨q, r⟩, cs, rfl, hq, hrest⟩ := List.map_eq_cons_iff.1 hprims
    obtain rfl : q = .write w.1 w.2 := hq
    obtain rfl : r = .done := hdone _ List.mem_cons_self
    exact ih _ hrest fun c hc => hdone c (List.mem_cons_of_mem _ hc)

/-- Writes that were all made without a failure were all done: no call of theirs reports a bit. -/
theorem Made.all_done {ws : List (Line × Bool)} {s t : State} {done : List Call}
    (h : Made (writePrims ws) s t true done) : ∀ c ∈ done, c.result = .done := by
  obtain ⟨hprims, hok⟩ := h.complete rfl
  intro c hc
  have hmem : c.prim ∈ writePrims ws := hprims ▸ List.mem_map_of_mem hc
  rcases h.results c hc with hfailed | hdone | ⟨p, hp⟩
  · exact absurd hfailed (hok c hc)
  · exact hdone
  · simp [writePrims, hp] at hmem

theorem bit_of_clearWrites {pins : List Line} : ∀ w ∈ clearWrites pins, w.2 = false := by
  simp [clearWrites]

theorem bit_of_setWrites {pins : List Line} {v : Pattern} : ∀ w ∈ setWrites pins v, w.2 = true := by
  simp [setWrites]

/-- A whole clear phase and then a whole set phase leave the pattern, in whatever orders. -/
theorem ClearThenSet.holds {pins : List Line} {v : Pattern} {c d : List (Line × Bool)}
    (h : ClearThenSet pins (some v) c d) (hnodup : pins.Nodup) (hlength : v.length = pins.length)
    (m : PerLine Level) : Holds pins v (setLevels (c ++ d) m) := by
  obtain ⟨hc, hd⟩ := h
  have hclear : ∀ w ∈ c, w.2 = false := fun w hw => bit_of_clearWrites w (hc.mem_iff.1 hw)
  have hset : ∀ w ∈ d, w.2 = true := fun w hw => bit_of_setWrites w (hd.mem_iff.1 hw)
  refine holds_of_setLines hnodup hlength fun p hp => ?_
  rw [LineSpace.setLevels_append, setLevels_get_of_const hset, setLevels_get_of_const hclear]
  simp only [(hc.map Prod.fst).mem_iff, (hd.map Prod.fst).mem_iff, map_fst_clearWrites,
    map_fst_setWrites]
  by_cases hbit : p ∈ setLines pins v <;> simp [hbit, hp]

section applies
variable {pins : List Line} {v : Pattern} {s t : State} (h : applyGroup pins (some v) s = .next t)
include h

theorem applyGroup_later : Later s t := by
  obtain ⟨c, d, u, ok, -, -, -, hattempts, rfl⟩ := applyGroup_next h
  cases ok <;> exact hattempts.later

theorem applyGroup_operating : Operating pins t := by
  obtain ⟨⟨hphase, hconfigured⟩, -⟩ := onOperating_next.1 h
  obtain ⟨hphase', ⟨hmodes, -, -⟩, -⟩ := ApplyCommands.applyGroup_frame h
  exact ⟨hphase' ▸ hphase, (configured_congr hmodes).trans hconfigured⟩

theorem applyGroup_holds_of_ok (hok : status t = some .ok) (hundisturbed : UndisturbedUntil s t)
    (hnodup : pins.Nodup) (hlength : v.length = pins.length) : Holds pins v t.levels := by
  obtain ⟨c, d, u, ok, -, -, hphases, hattempts, rfl⟩ := applyGroup_next h
  cases ok with
  | false => simp [status] at hok
  | true =>
    obtain ⟨done, hmade⟩ := hattempts.calls
    have hundisturbed' : UndisturbedUntil (startCommand s) u := hundisturbed
    have hlevels : u.levels = setLevels (c ++ d) s.levels := by
      rw [hmade.levels_all, levelsAfter,
        replayMoves_undisturbed (hundisturbed'.take hmade.environment)]
      exact replay_of_writes _ (hmade.complete rfl).1 (Made.all_done hmade)
    exact hlevels ▸ ClearThenSet.holds hphases hnodup hlength s.levels

end applies

/-! ### Commands that write no line of a group -/

/-- The lines a command may write (40_apply.md R71, R72; 42_control.md R90, R92). -/
def writtenLines : Instr → List Line
  | .applyGain o => if (gainPattern o).isSome then gainPins else []
  | .applyFilter o => if (filterPattern o).isSome then filterPins else []
  | .readGain | .readFilter | .idn => []
  | .disableAll | .init _ _ => allLines

theorem applyGroup_levels_kept {pins : List Line} {v : Option Pattern} {s t : State}
    (h : applyGroup pins v s = .next t) (hundisturbed : UndisturbedUntil s t) :
    LevelsKeptOutside (if v.isSome then pins else []) s t := by
  cases v with
  | none =>
    rw [LevelsKeptOutside, applyGroup_levels h]
    exact fun _ _ => rfl
  | some v =>
    obtain ⟨-, -, hkept⟩ := ApplyCommands.applyGroup_frame h
    exact hkept hundisturbed

theorem readGroup_levels_kept {pins : List Line} {decoded : Pattern → Tag} {s t : State}
    (h : readGroup pins decoded s = .next t) (hundisturbed : UndisturbedUntil s t) :
    LevelsKeptOutside [] s t := by
  obtain ⟨-, -, hkept⟩ := readGroup_frame h
  exact fun p _ => by rw [hkept hundisturbed]

/-- Undisturbed, a command keeps the levels of the lines it does not write. -/
theorem exec_levels_kept {i : Instr} {s t : State} (h : exec i s = .next t)
    (hundisturbed : UndisturbedUntil s t) : LevelsKeptOutside (writtenLines i) s t := by
  cases i with
  | applyGain o => exact applyGroup_levels_kept h hundisturbed
  | applyFilter o => exact applyGroup_levels_kept h hundisturbed
  | readGain => exact readGroup_levels_kept h hundisturbed
  | readFilter => exact readGroup_levels_kept h hundisturbed
  | disableAll => exact fun p hp => absurd (mem_allLines p) hp
  | init tg tf => exact fun p hp => absurd (mem_allLines p) hp
  | idn => cases h; exact fun _ _ => rfl

theorem disjoint_writtenLines_of_sparesGain {i : Instr} (h : sparesGain i = true) :
    gainPins.Disjoint (writtenLines i) := by
  cases i with
  | applyGain o =>
    cases o with
    | setting g => cases h
    | unrecognized x => exact List.disjoint_nil_right _
  | applyFilter o =>
    cases o with
    | setting f => exact disjoint_gainPins_filterPins
    | unrecognized x => exact List.disjoint_nil_right _
  | readGain | readFilter | idn => exact List.disjoint_nil_right _
  | disableAll | init tg tf => cases h

theorem disjoint_writtenLines_of_sparesFilter {i : Instr} (h : sparesFilter i = true) :
    filterPins.Disjoint (writtenLines i) := by
  cases i with
  | applyGain o =>
    cases o with
    | setting g => exact disjoint_gainPins_filterPins.symm
    | unrecognized x => exact List.disjoint_nil_right _
  | applyFilter o =>
    cases o with
    | setting f => cases h
    | unrecognized x => exact List.disjoint_nil_right _
  | readGain | readFilter | idn => exact List.disjoint_nil_right _
  | disableAll | init tg tf => cases h

/-! ### What such commands keep, one after the other -/

/-- `t` comes later than `s` on the same bench, with a group as usable as it was and, undisturbed, its
levels as they were. -/
structure KeepsGroup (pins : List Line) (s t : State) : Prop where
  later : Later s t
  operating : Operating pins s → Operating pins t
  levels : UndisturbedUntil s t → ∀ p ∈ pins, t.levels.get p = s.levels.get p

theorem KeepsGroup.refl (pins : List Line) (s : State) : KeepsGroup pins s s :=
  ⟨.refl s, id, fun _ _ _ => rfl⟩

theorem KeepsGroup.trans {pins : List Line} {s t u : State} (h : KeepsGroup pins s t)
    (k : KeepsGroup pins t u) : KeepsGroup pins s u where
  later := h.later.trans k.later
  operating := k.operating ∘ h.operating
  levels := fun hundisturbed p hp =>
    (k.levels (hundisturbed.after h.later k.later) p hp).trans
      (h.levels (hundisturbed.before h.later k.later) p hp)

theorem exec_keepsGroup {pins : List Line} {i : Instr} {s t : State} (h : exec i s = .next t)
    (hdisjoint : pins.Disjoint (writtenLines i)) : KeepsGroup pins s t := by
  obtain ⟨ps, u, ok, hran⟩ := exec_ran h
  obtain ⟨hparams, n, henvironment⟩ := hran.attempts.later
  refine ⟨⟨hran.params.trans hparams, n, hran.environment.trans henvironment⟩, ?_, ?_⟩
  · rintro ⟨hphase, hconfigured⟩
    refine ⟨?_, PhaseAndSetup.configured_of_outputs_stay
      (fun _ => PhaseAndSetup.exec_output_stays h) hconfigured⟩
    rcases hran.phase with hsame | ⟨huninit, -⟩ | ⟨-, hdisabled, -⟩
    · rwa [hsame]
    · exact absurd huninit hphase
    · simp [hdisabled]
  · exact fun hundisturbed p hp => exec_levels_kept h hundisturbed p (hdisjoint hp)

theorem execAll_cons_next {i : Instr} {is : List Instr} {s u : State}
    (h : execAll (i :: is) s = .next u) : ∃ t, exec i s = .next t ∧ execAll is t = .next u := by
  unfold execAll at h
  cases hexec : exec i s with
  | next t => exact ⟨t, rfl, by simpa [hexec] using h⟩
  | fault r => simp [hexec] at h
  | refused r => simp [hexec] at h

theorem execAll_keepsGroup {pins : List Line} {is : List Instr} {s t : State}
    (h : execAll is s = .next t) (hdisjoint : ∀ i ∈ is, pins.Disjoint (writtenLines i)) :
    KeepsGroup pins s t := by
  induction is generalizing s with
  | nil => cases h; exact .refl pins _
  | cons i is ih =>
    obtain ⟨u, hfirst, hrest⟩ := execAll_cons_next h
    exact (exec_keepsGroup hfirst (hdisjoint i List.mem_cons_self)).trans
      (ih hrest fun j hj => hdisjoint j (List.mem_cons_of_mem _ hj))

/-! ### The round trip (41_read.md R82) -/

theorem apply_then_read {pins : List Line} {v : Pattern} {decoded : Pattern → Tag} {s s1 s2 : State}
    {is : List Instr} (hnodup : pins.Nodup) (hlength : v.length = pins.length)
    (happly : applyGroup pins (some v) s = .next s1) (hok : status s1 = some .ok)
    (hdisjoint : ∀ i ∈ is, pins.Disjoint (writtenLines i)) (hbetween : execAll is s1 = .next s2) :
    ∃ t, readGroup pins decoded s2 = .next t ∧ (UndisturbedUntil s t →
      status t ≠ some .driverFailure → t.response = some ⟨.ok, decoded v, none⟩) := by
  have hkeeps := execAll_keepsGroup hbetween hdisjoint
  obtain ⟨t, hread⟩ :=
    exists_readGroup_next (decoded := decoded) (hkeeps.operating (applyGroup_operating happly))
  refine ⟨t, hread, fun hundisturbed hstatus => ?_⟩
  have hlater1 := applyGroup_later happly
  have hlater3 := readGroup_later hread
  have hafter := hundisturbed.after hlater1 (hkeeps.later.trans hlater3)
  have hholds1 : Holds pins v s1.levels := applyGroup_holds_of_ok happly hok
    (hundisturbed.before hlater1 (hkeeps.later.trans hlater3)) hnodup hlength
  have hholds2 : Holds pins v s2.levels :=
    holds_congr hholds1 (hkeeps.levels (hafter.before hkeeps.later hlater3))
  obtain ⟨w, -, hresponse⟩ := readGroup_of_not_failed hread hstatus
  rw [hresponse, ReadRows.readGroup_ok_of_holds (hafter.after hkeeps.later hlater3) hholds2 hread
    hresponse]

/-- Settles O24: what the read decodes is a row of the table, whose tag is the one applied. -/
theorem applyReadRoundTrip : Obligations.ApplyReadRoundTrip := by
  unfold Obligations.ApplyReadRoundTrip
  refine ⟨fun s s1 s2 g is happly hok hspares hbetween => ?_,
    fun s s1 s2 f is happly hok hspares hbetween => ?_⟩
  · rw [← SettingTables.gainDec_gainEnc g]
    exact apply_then_read nodup_gainPins (length_of_gainPattern (o := .setting g) _ rfl) happly hok
      (fun i hi => disjoint_writtenLines_of_sparesGain (hspares i hi)) hbetween
  · rw [← SettingTables.filterDec_filterEnc f]
    exact apply_then_read nodup_filterPins (length_of_filterPattern (o := .setting f) _ rfl) happly
      hok (fun i hi => disjoint_writtenLines_of_sparesFilter (hspares i hi)) hbetween

end Sys2Proof.Proofs.RoundTrip
end

section
namespace Sys2Proof.Proofs.ControlCommands
open Sys2Proof Sys2Proof.Machine

/-! ### The calls a command tried, and those it made -/

/-- The calls made are a beginning of the calls tried, and all of them where none failed. -/
theorem prims_of_attempts {ps : List Prim} {s u : State} {ok : Bool}
    (h : Attempts ps (startCommand s) u ok) : prims u <+: ps ∧ (ok = true → prims u = ps) := by
  obtain ⟨done, hmade⟩ := h.calls
  have hprims : prims u = done.map Call.prim := congrArg (List.map Call.prim) hmade.calls
  rw [hprims]
  exact ⟨hmade.begins, fun hok => (hmade.complete hok).1⟩

/-- Writes that all succeeded undisturbed set their bits one after the other. -/
theorem levels_of_writes {ws : List (Line × Bool)} {s u : State} (h : Attempts (writePrims ws) s u true)
    (hundisturbed : UndisturbedUntil s u) : u.levels = setLevels ws s.levels := by
  obtain ⟨done, hmade⟩ := h.calls
  obtain ⟨hprims, -⟩ := hmade.complete rfl
  rw [hmade.levels_all, levelsAfter, replayMoves_undisturbed (hundisturbed.take hmade.environment)]
  exact RoundTrip.replay_of_writes _ hprims (RoundTrip.Made.all_done hmade)

/-- Only the last call of a command can have failed (60_exceptions.md R102). -/
theorem not_failed_of_later_call {ps : List Prim} {s u : State} {ok : Bool} {pre post : List Call} {c : Call}
    (h : Made ps s u ok (pre ++ c :: post)) : ∀ d ∈ pre, d.result ≠ .failed := by
  intro d hd
  cases ok with
  | true => exact (h.complete rfl).2 d (List.mem_append_left _ hd)
  | false =>
    obtain ⟨front, last, hsplit, -, hfront⟩ := h.broken rfl
    have hdrop : pre ++ (c :: post).dropLast = front := by
      simpa using congrArg List.dropLast hsplit
    exact hfront d (hdrop ▸ List.mem_append_left _ hd)

/-- A write with another call after it was done. -/
theorem done_of_later_call {ps : List Prim} {s u : State} {ok : Bool} {pre post : List Call} {c : Call}
    (h : Made ps s u ok (pre ++ c :: post)) {p : Line} {b : Bool}
    (hwrite : Prim.write p b ∈ pre.map Call.prim) : ⟨.write p b, .done⟩ ∈ pre := by
  obtain ⟨⟨q, r⟩, hmem, hq⟩ := List.mem_map.1 hwrite
  obtain rfl : q = .write p b := hq
  rcases h.results _ (List.mem_append_left _ hmem) with hfailed | hdone | ⟨x, hread⟩
  · exact absurd hfailed (not_failed_of_later_call h _ hmem)
  · obtain rfl : r = .done := hdone
    exact hmem
  · cases hread

/-! ### `DISABLE_ALL` (42_control.md R90) -/

/-- `DISABLE_ALL` only writes lines, and sets the phase only at its end. -/
theorem disableAllFrame_of_next {s t : State} (h : execDisableAll s = .next t) :
    SameSetup s t ∧ (t.phase = .disabled ∨ t.phase = s.phase) ∧
      (status t = some .driverFailure → t.phase = s.phase) := by
  obtain ⟨ws, u, ok, -, -, hattempts, rfl⟩ := execDisableAll_next h
  have hsetup : SameSetup s u :=
    ⟨hattempts.modesKept (setMode_not_mem_writePrims _), hattempts.params, hattempts.inputs⟩
  cases ok with
  | true => exact ⟨hsetup, .inl rfl, fun hfailed => by simp [status] at hfailed⟩
  | false => exact ⟨hsetup, .inr hattempts.phase, fun _ => hattempts.phase⟩

/-- Settles O27. -/
theorem disableAllFrame : Obligations.DisableAllFrame := by
  unfold Obligations.DisableAllFrame
  exact fun _ _ h => disableAllFrame_of_next h

/-- Writes of 0 that go through all ten lines leave 0 on each, in whatever order. -/
theorem setLevels_clear_allLines {ws : List (Line × Bool)} (h : ws.Perm (clearWrites allLines))
    (m : PerLine Level) (p : Line) : (setLevels ws m).get p = .holds false := by
  have hbits : ∀ w ∈ ws, w.2 = false := fun w hw => RoundTrip.bit_of_clearWrites w (h.mem_iff.1 hw)
  have hmem : p ∈ ws.map Prod.fst := by
    rw [(h.map Prod.fst).mem_iff, map_fst_clearWrites]
    exact mem_allLines p
  rw [setLevels_get_of_const hbits, if_pos hmem]

/-- Settles O26: on a calm bench all ten writes are made, and they go through `ALL_LINES`. -/
theorem disableAllEffect : Obligations.DisableAllEffect := by
  unfold Obligations.DisableAllEffect
  intro s hoperating hcalm
  have hrun : execDisableAll s = .next _ := onOperating_next.2 ⟨hoperating, rfl⟩
  obtain ⟨hsetup, -, -⟩ := disableAllFrame_of_next hrun
  obtain ⟨ws, u, ok, -, hperm, hattempts, ht⟩ := execDisableAll_next hrun
  obtain rfl : ok = true := hattempts.ok_of_noFailure hcalm.1
  rw [if_pos rfl] at ht
  rw [ht] at hrun hsetup
  have hlevels : u.levels = setLevels ws (startCommand s).levels :=
    levels_of_writes hattempts (CalmCommands.calm_startCommand hcalm).2.until
  have hprims : prims u = writePrims ws := (prims_of_attempts hattempts).2 rfl
  refine ⟨_, hrun, fun p => ?_, rfl, hsetup, rfl, ?_⟩
  · exact hlevels ▸ setLevels_clear_allLines hperm _ p
  · exact hprims ▸ hperm.map _

/-! ### The sequence of `INIT` (42_control.md R92) -/

/-- The calls of a whole initialization, each phase in some order of its own. -/
def InitSequence (tg : GainOperand) (tf : FilterOperand) (qs : List Prim) : Prop :=
  ∃ (ps : List Line) (c d c' d' : List (Line × Bool)), ps.Perm allLines ∧
    ClearThenSet gainPins (gainPattern tg) c d ∧ ClearThenSet filterPins (filterPattern tf) c' d' ∧
    qs = initPrims ps c d c' d'

theorem isSome_of_write_mem {pins : List Line} {v : Option Pattern} {c d : List (Line × Bool)}
    (h : ClearThenSet pins v c d) {p : Line} {b : Bool} (hm : Prim.write p b ∈ writePrims (c ++ d)) :
    v.isSome = true := by
  cases v with
  | none => obtain ⟨rfl, rfl⟩ := h; simp [writePrims] at hm
  | some v => rfl

/-- The lines an initialization writes: the control lines and the groups of the recognized operands. -/
theorem InitSequence.written {tg : GainOperand} {tf : FilterOperand} {qs : List Prim}
    (h : InitSequence tg tf qs) {p : Line} {b : Bool} (hm : Prim.write p b ∈ qs) :
    p ∈ [.ctrlHigh, .ctrlLow] ∨ ((gainPattern tg).isSome = true ∧ p ∈ gainPins) ∨
      ((filterPattern tf).isSome = true ∧ p ∈ filterPins) := by
  obtain ⟨ps, c, d, c', d', -, hgain, hfilter, rfl⟩ := h
  rw [initPrims, List.mem_append, List.mem_append, List.mem_append] at hm
  rcases hm with ((hmode | hcontrol) | hwrite) | hwrite
  · simp at hmode
  · simp only [List.mem_cons, Prim.write.injEq, List.not_mem_nil, or_false] at hcontrol
    rcases hcontrol with ⟨rfl, -⟩ | ⟨rfl, -⟩ <;> simp
  · exact .inr (.inl ⟨isSome_of_write_mem hgain hwrite, hgain.mem_pins hwrite⟩)
  · exact .inr (.inr ⟨isSome_of_write_mem hfilter hwrite, hfilter.mem_pins hwrite⟩)

/-- An initialization writes both control lines in a first part that writes no setting line. -/
theorem InitSequence.control_first {tg : GainOperand} {tf : FilterOperand} {qs : List Prim}
    (h : InitSequence tg tf qs) : ∃ front, front <+: qs ∧ .write .ctrlHigh true ∈ front ∧
      .write .ctrlLow false ∈ front ∧ ∀ p ∈ gainPins ++ filterPins, ∀ b, Prim.write p b ∉ front := by
  obtain ⟨ps, c, d, c', d', -, -, -, rfl⟩ := h
  refine ⟨ps.map .setMode ++ [.write .ctrlHigh true, .write .ctrlLow false], ?_, by simp, by simp, ?_⟩
  · rw [initPrims, List.append_assoc _ _ (writePrims (c' ++ d'))]
    exact List.prefix_append _ _
  · intro p hp b
    have hother : p ≠ .ctrlHigh ∧ p ≠ .ctrlLow := by
      revert p
      decide
    simp [hother]

/-- What a run of `INIT` from `s` to `t` did: of a whole initialization `all` it tried the beginning `qs`, from
which come `u` and `ok`, and it tried all of it with success unless it responds DRIVER_FAILURE. -/
structure InitTried (tg : GainOperand) (tf : FilterOperand) (s t : State) (all qs : List Prim) (u : State)
    (ok : Bool) : Prop where
  sequence : InitSequence tg tf all
  begins : qs <+: all
  attempts : Attempts qs (startCommand s) u ok
  calls : t.calls = u.calls
  levels : t.levels = u.levels
  environment : t.environment = u.environment
  complete : status t ≠ some .driverFailure → ok = true ∧ qs = all

/-- A failed connection lets `INIT` try nothing, and otherwise it tries everything. -/
theorem execInit_tried {tg : GainOperand} {tf : FilterOperand} {s t : State}
    (h : execInit tg tf s = .next t) : ∃ all qs u ok, InitTried tg tf s t all qs u ok := by
  obtain ⟨ps, c, d, c', d', hps, hgain, hfilter, hattempts⟩ := initSteps_attempts tg tf (startCommand s)
  have hall : InitSequence tg tf (initPrims ps c d c' d') :=
    ⟨ps, c, d, c', d', hps, hgain, hfilter, rfl⟩
  obtain ⟨-, ⟨-, rfl⟩ | ⟨-, rfl⟩⟩ := execInit_next h
  · exact ⟨_, [], _, true, hall, List.nil_prefix, .nil _, rfl, rfl, rfl,
      fun hstatus => absurd rfl hstatus⟩
  · refine ⟨_, _, _, _, hall, List.prefix_rfl, hattempts, conclude_field _ (fun _ => rfl) fun _ => rfl,
      conclude_field _ (fun _ => rfl) fun _ => rfl, conclude_field _ (fun _ => rfl) fun _ => rfl,
      fun hstatus => ⟨?_, rfl⟩⟩
    refine Bool.eq_true_of_not_eq_false fun hfailed => hstatus ?_
    rw [conclude_failed hfailed]
    rfl

/-- Settles O30. -/
theorem initStepOrder : Obligations.InitStepOrder := by
  unfold Obligations.InitStepOrder
  intro s t tg tf h
  obtain ⟨all, qs, u, ok, htried⟩ := execInit_tried h
  obtain ⟨ps, c, d, c', d', hps, hgain, hfilter, rfl⟩ := htried.sequence
  obtain ⟨hprefix, hwhole⟩ := prims_of_attempts htried.attempts
  have hprims : prims t = prims u := congrArg (List.map Call.prim) htried.calls
  refine ⟨ps, c, d, c', d', hps, hgain, hfilter, hprims ▸ hprefix.trans htried.begins, fun hstatus => ?_⟩
  obtain ⟨hok, rfl⟩ := htried.complete hstatus
  exact hprims.trans (hwhole hok)

/-- What is not in a first part of a list comes after the whole of that part. -/
theorem prefix_of_not_mem {α : Type} {front pre post all : List α} {x : α} (hfront : front <+: all)
    (h : pre ++ x :: post <+: all) (hx : x ∉ front) : front <+: pre := by
  have hthrough : pre ++ [x] <+: all :=
    (List.prefix_append_right_inj pre |>.2 ⟨post, rfl⟩).trans h
  rcases List.prefix_or_prefix_of_prefix hfront hthrough with hle | hle
  · rcases List.prefix_concat_iff.1 hle with rfl | hpre
    · exact absurd (by simp) hx
    · exact hpre
  · exact absurd (hle.subset (by simp)) hx

/-- Settles O31: a write to a setting line comes after the whole part that writes the control lines, and of
the calls before it none failed. -/
theorem initControlLinesFirst : Obligations.InitControlLinesFirst := by
  unfold Obligations.InitControlLinesFirst
  intro s t tg tf h pre post c p b hsplit hwrite hp
  obtain ⟨all, qs, u, ok, htried⟩ := execInit_tried h
  obtain ⟨front, hfront, hhigh, hlow, hsetting⟩ := htried.sequence.control_first
  obtain ⟨done, hmade⟩ := htried.attempts.calls
  obtain rfl : pre ++ c :: post = done := hsplit.symm.trans (htried.calls.trans hmade.calls)
  have hprims : pre.map Call.prim ++ c.prim :: post.map Call.prim <+: all := by
    simpa using hmade.begins.trans htried.begins
  have hbefore : front <+: pre.map Call.prim :=
    prefix_of_not_mem hfront hprims (hwrite ▸ hsetting p hp b)
  exact ⟨done_of_later_call hmade (hbefore.subset hhigh), done_of_later_call hmade (hbefore.subset hlow)⟩

/-- Undisturbed, a run of `INIT` keeps the levels of the lines that a whole initialization would not write. -/
theorem execInit_levels_kept {tg : GainOperand} {tf : FilterOperand} {s t : State}
    (h : execInit tg tf s = .next t) (hundisturbed : UndisturbedUntil s t) {p : Line}
    (hcontrol : p ∉ [Line.ctrlHigh, .ctrlLow]) (hgain : (gainPattern tg).isSome = true → p ∉ gainPins)
    (hfilter : (filterPattern tf).isSome = true → p ∉ filterPins) :
    t.levels.get p = s.levels.get p := by
  obtain ⟨all, qs, u, ok, htried⟩ := execInit_tried h
  have hundisturbed' : UndisturbedUntil (startCommand s) u := by
    rwa [UndisturbedUntil, htried.environment] at hundisturbed
  rw [htried.levels]
  refine htried.attempts.levels hundisturbed' p fun b hwrite => ?_
  rcases htried.sequence.written (htried.begins.subset hwrite) with hmem | ⟨hsome, hmem⟩ | ⟨hsome, hmem⟩
  · exact hcontrol hmem
  · exact hgain hsome hmem
  · exact hfilter hsome hmem

/-- Settles O29: the groups hold neither the control lines nor the tenth line nor each other's. -/
theorem initFrame : Obligations.InitFrame := by
  unfold Obligations.InitFrame
  intro s t tg tf h
  obtain ⟨ps, u, ok, hran⟩ := exec_ran h
  refine ⟨PhaseAndSetup.exec_params h, hran.inputs.trans hran.attempts.inputs, ?_, fun hundisturbed =>
    ⟨?_, ?_, ?_⟩⟩
  · rcases hran.phase with hsame | ⟨-, hready, -⟩ | ⟨-, -, -, -, hother⟩
    · exact .inr hsame
    · exact .inl hready
    · cases hother
  · exact execInit_levels_kept h hundisturbed (by decide) (fun _ => by decide) fun _ => by decide
  · rintro x rfl p hp
    exact execInit_levels_kept h hundisturbed (by revert p; decide) nofun
      fun _ => CalmCommands.disjoint_gainPins_filterPins hp
  · rintro x rfl p hp
    exact execInit_levels_kept h hundisturbed (by revert p; decide)
      (fun _ hgain => CalmCommands.disjoint_gainPins_filterPins hgain hp) nofun

/-- Settles O32. -/
theorem initNotConnected : Obligations.InitNotConnected := by
  unfold Obligations.InitNotConnected
  intro s tg tf hphase hconnected
  have hrefuses : ¬ (startCommand s).params.connected = true := by simp [hconnected]
  rw [exec, execInit, if_pos hphase, runInit, if_neg hrefuses]
  rfl

/-! ### `IDN` (42_control.md R94) -/

/-- Settles O33. -/
theorem idnEffect : Obligations.IdnEffect := by
  unfold Obligations.IdnEffect
  exact ⟨by decide, fun _ => rfl⟩

end Sys2Proof.Proofs.ControlCommands
end

section
namespace Sys2Proof.Proofs.AdmissionTable
open Sys2Proof Sys2Proof.Machine

/-- An `INIT` that does not respond DRIVER_FAILURE came to its end, which sets the phase. -/
theorem execInit_ready {tg : GainOperand} {tf : FilterOperand} {s t : State}
    (h : execInit tg tf s = .next t) (hstatus : status t ≠ some .driverFailure) : t.phase = .ready := by
  obtain ⟨-, ⟨-, rfl⟩ | ⟨-, rfl⟩⟩ := execInit_next h
  · exact absurd rfl hstatus
  · cases hok : (initSteps tg tf (startCommand s)).ok with
    | true => rw [conclude_ok hok]; rfl
    | false => rw [conclude_failed hok] at hstatus; exact absurd rfl hstatus

theorem execDisableAll_disabled {s t : State} (h : execDisableAll s = .next t)
    (hstatus : status t = some .ok) : t.phase = .disabled := by
  obtain ⟨ws, u, ok, -, -, -, rfl⟩ := execDisableAll_next h
  cases ok with
  | true => rfl
  | false => simp [status] at hstatus

section operating
variable {s : State} (hphase : s.phase ≠ .uninit) (hall : configured allLines s = true)
include hphase hall

theorem exists_applyGroup_next (pins : List Line) (v : Option Pattern) :
    ∃ t, applyGroup pins v s = .next t ∧ t.phase = s.phase := by
  have hrun : applyGroup pins v s = .next _ :=
    onOperating_next.2 ⟨⟨hphase, configured_of_allLines hall⟩, rfl⟩
  exact ⟨_, hrun, CalmCommands.applyGroup_phase hrun⟩

theorem exists_readGroup_next (pins : List Line) (decoded : Pattern → Tag) :
    ∃ t, readGroup pins decoded s = .next t ∧ t.phase = s.phase := by
  have hoperating : Operating pins s := ⟨hphase, configured_of_allLines hall⟩
  obtain ⟨t, hrun⟩ := ReadCommands.exists_readGroup_next (decoded := decoded) hoperating
  obtain ⟨hsame, -⟩ := ReadCommands.readGroup_frame hrun
  exact ⟨t, hrun, hsame⟩

theorem exists_execDisableAll_next :
    ∃ t, execDisableAll s = .next t ∧ (status t = some .ok → t.phase = .disabled) := by
  have hrun : execDisableAll s = .next _ := onOperating_next.2 ⟨⟨hphase, hall⟩, rfl⟩
  exact ⟨_, hrun, execDisableAll_disabled hrun⟩

end operating

/-- Settles O34: the admission tests of `onOperating` and `execInit`, and how each command ends. -/
theorem admissionByPhase : Obligations.AdmissionByPhase := by
  unfold Obligations.AdmissionByPhase
  refine ⟨fun s hphase => ?_, fun s hphase hinvariant => ?_, fun s => ⟨_, rfl, rfl⟩,
    fun s w rest hno hinputs => ?_⟩
  · refine ⟨fun o => if_pos hphase, fun o => if_pos hphase, if_pos hphase, if_pos hphase, if_pos hphase,
      fun tg tf => ?_⟩
    have hrun : execInit tg tf s = .next _ := if_pos hphase
    exact ⟨_, hrun, fun hstatus => execInit_ready hrun (by rcases hstatus with h | h <;> simp [h])⟩
  · have hall := hinvariant hphase
    exact ⟨fun tg tf => if_neg hphase, fun o => exists_applyGroup_next hphase hall _ _,
      fun o => exists_applyGroup_next hphase hall _ _, exists_readGroup_next hphase hall _ _,
      exists_readGroup_next hphase hall _ _, exists_execDisableAll_next hphase hall⟩
  · cases hdecode : decode w with
    | ok i => exact absurd hdecode (hno i)
    | error e => exact OpcodeMap.step_of_error hinputs hdecode

end Sys2Proof.Proofs.AdmissionTable
end

section
namespace Sys2Proof.Proofs.LevelBlindness
open Sys2Proof Sys2Proof.Machine

/-! ### States that differ in their levels -/

/-- States that differ at most in the levels, the bits that reads reported, the inputs and the response. -/
structure SameButLevels (s u : State) : Prop where
  phase : u.phase = s.phase
  modes : u.modes = s.modes
  params : u.params = s.params
  environment : u.environment = s.environment
  draws : u.draws = s.draws
  prims : prims u = prims s

theorem prims_recordCall (c : Call) (s : State) : prims (recordCall c s) = prims s ++ [c.prim] :=
  List.map_append

section updates
variable {s u : State} (h : SameButLevels s u)
include h

theorem SameButLevels.callFails : callFails u = callFails s := by
  rw [Machine.callFails, Machine.callFails, nextCallEnv, nextCallEnv, h.params, h.environment]

theorem SameButLevels.beginCall : SameButLevels (beginCall s) (beginCall u) :=
  { h with environment := congrArg List.tail h.environment }

theorem SameButLevels.spend (n : Nat) : SameButLevels (spend n s) (spend n u) :=
  { h with draws := congrArg (· + n) h.draws }

theorem SameButLevels.putLevel (p : Line) (l k : Level) :
    SameButLevels (putLevel p l s) (putLevel p k u) :=
  { h with }

theorem SameButLevels.putMode (p : Line) {m n : Mode} (hmode : n = m) :
    SameButLevels (putMode p m s) (putMode p n u) :=
  { h with modes := by rw [putMode_modes, putMode_modes, h.modes, hmode] }

theorem SameButLevels.putPhase (ph : Phase) : SameButLevels (putPhase ph s) (putPhase ph u) :=
  { h with phase := rfl }

theorem SameButLevels.recordCall (a : Prim) (r x : CallResult) :
    SameButLevels (recordCall ⟨a, r⟩ s) (recordCall ⟨a, x⟩ u) :=
  { h with prims := by rw [prims_recordCall, prims_recordCall, h.prims] }

end updates

/-! ### No primitive call lets a level decide how it ends -/

/-- Calls that end the same way, in states that differ no more than before, whatever the levels are. -/
def LevelBlind (f : State → Run) : Prop :=
  ∀ s u, SameButLevels s u → (f u).ok = (f s).ok ∧ SameButLevels (f s).state (f u).state

theorem LevelBlind.andThen {f g : State → Run} (hf : LevelBlind f) (hg : LevelBlind g) :
    LevelBlind fun s => (f s).andThen g := by
  intro s u h
  obtain ⟨hok, hstate⟩ := hf s u h
  simp only [Run.andThen, hok]
  cases hcase : (f s).ok with
  | true => exact hg _ _ hstate
  | false => exact ⟨hok, hstate⟩

theorem lineSetMode_levelBlind (p : Line) : LevelBlind (lineSetMode p) := by
  intro s u h
  have hmode : failedMode u.draws (u.modes.get p) = failedMode s.draws (s.modes.get p) := by
    rw [h.draws, h.modes]
  unfold lineSetMode
  rw [h.callFails]
  cases callFails s with
  | true => exact ⟨rfl, ((h.beginCall.putMode p hmode).spend 1).recordCall _ _ _⟩
  | false => exact ⟨rfl, (h.beginCall.putMode p rfl).recordCall _ _ _⟩

theorem lineWrite_levelBlind (p : Line) (b : Bool) : LevelBlind (lineWrite p b) := by
  intro s u h
  unfold lineWrite
  rw [h.callFails]
  cases callFails s with
  | true => exact ⟨rfl, ((h.beginCall.putLevel p _ _).spend 1).recordCall _ _ _⟩
  | false => exact ⟨rfl, (h.beginCall.putLevel p _ _).recordCall _ _ _⟩

/-- A level decides the bit a read reports, and nothing else. -/
theorem lineRead_levelBlind (p : Line) : LevelBlind (runPrim (.read p)) := by
  intro s u h
  simp only [runPrim, lineRead, h.callFails]
  cases callFails s with
  | true => exact ⟨rfl, h.beginCall.recordCall _ _ _⟩
  | false => exact ⟨rfl, (h.beginCall.spend 1).recordCall _ _ _⟩

theorem runPrims_levelBlind (ps : List Prim) : LevelBlind (runPrims ps) := by
  induction ps with
  | nil => exact fun _ _ h => ⟨rfl, h⟩
  | cons a ps ih =>
    refine LevelBlind.andThen (f := runPrim a) ?_ ih
    cases a with
    | setMode p => exact lineSetMode_levelBlind p
    | write p b => exact lineWrite_levelBlind p b
    | read p => exact lineRead_levelBlind p

/-! ### The sequences of calls the commands make -/

theorem setModeSeq_eq_runPrims (ps : List Line) : setModeSeq ps = runPrims (ps.map .setMode) := by
  induction ps with
  | nil => rfl
  | cons p ps ih =>
    funext s
    rw [setModeSeq, ih]
    rfl

theorem writeSeq_eq_runPrims (ws : List (Line × Bool)) : writeSeq ws = runPrims (writePrims ws) := by
  induction ws with
  | nil => rfl
  | cons w ws ih =>
    funext s
    rw [writeSeq, ih]
    rfl

theorem runPrims_read (ps : List Line) (s : State) :
    runPrims (ps.map .read) s = ⟨(readSeq ps s).1, (readSeq ps s).2.isSome⟩ := by
  induction ps generalizing s with
  | nil => rfl
  | cons p ps ih =>
    simp only [List.map_cons, runPrims, runPrim, readSeq, Run.andThen, ih]
    cases (lineRead p s).2 <;> simp

/-- A free order comes of the free values, which no level decides. -/
theorem setModeAnyOrder_levelBlind (ps : List Line) : LevelBlind (setModeAnyOrder ps) := by
  intro s u h
  rw [setModeAnyOrder, setModeAnyOrder, h.draws, setModeSeq_eq_runPrims]
  exact runPrims_levelBlind _ _ _ (h.spend _)

theorem writeAnyOrder_levelBlind (ws : List (Line × Bool)) : LevelBlind (writeAnyOrder ws) := by
  intro s u h
  rw [writeAnyOrder, writeAnyOrder, h.draws, writeSeq_eq_runPrims]
  exact runPrims_levelBlind _ _ _ (h.spend _)

theorem applyBody_levelBlind (pins : List Line) (v : Option Pattern) : LevelBlind (applyBody pins v) := by
  cases v with
  | none => exact fun _ _ h => ⟨rfl, h⟩
  | some v => exact (writeAnyOrder_levelBlind _).andThen (writeAnyOrder_levelBlind _)

theorem initSteps_levelBlind (tg : GainOperand) (tf : FilterOperand) : LevelBlind (initSteps tg tf) := by
  have hcontrol : LevelBlind (writeSeq controlWrites) :=
    writeSeq_eq_runPrims controlWrites ▸ runPrims_levelBlind _
  exact (((setModeAnyOrder_levelBlind allLines).andThen hcontrol).andThen
    (applyBody_levelBlind gainPins _)).andThen (applyBody_levelBlind filterPins _)

/-! ### What the commands answer -/

/-- What the answer of a command has in common whatever the levels are (42_control.md R95). -/
structure SameAnswer (t u : State) : Prop where
  prims : prims u = prims t
  phase : u.phase = t.phase
  modes : u.modes = t.modes
  status : status u = status t

/-- A command's work whose answer has all this in common from states that differ in the levels. -/
def AnswersAlike (body : State → State) : Prop :=
  ∀ s u, SameButLevels s u → SameAnswer (body s) (body u)

theorem respond_sameAnswer {s u : State} (h : SameButLevels s u) (st : Status) (v w : Tag) :
    SameAnswer (respond st v s) (respond st w u) :=
  ⟨h.prims, h.phase, h.modes, rfl⟩

theorem respond_answersAlike (st : Status) (v : Tag) : AnswersAlike (respond st v) :=
  fun _ _ h => respond_sameAnswer h st v v

theorem respond_putPhase_answersAlike (st : Status) (v : Tag) (ph : Phase) :
    AnswersAlike fun s => respond st v (putPhase ph s) :=
  fun _ _ h => respond_sameAnswer (h.putPhase ph) st v v

theorem conclude_answersAlike {f : State → Run} {finish : State → State} (hf : LevelBlind f)
    (hfinish : AnswersAlike finish) : AnswersAlike fun s => conclude (f s) finish := by
  intro s u h
  obtain ⟨hok, hstate⟩ := hf s u h
  cases hcase : (f s).ok with
  | true =>
    simp only [conclude_ok hcase, conclude_ok (hok.trans hcase)]
    exact hfinish _ _ hstate
  | false =>
    simp only [conclude_failed hcase, conclude_failed (hok.trans hcase)]
    exact respond_answersAlike _ _ _ _ hstate

theorem runInit_answersAlike (tg : GainOperand) (tf : FilterOperand) : AnswersAlike (runInit tg tf) := by
  intro s u h
  unfold runInit
  rw [h.params]
  split
  · exact conclude_answersAlike (initSteps_levelBlind tg tf) (respond_putPhase_answersAlike _ _ _) s u h
  · exact respond_answersAlike _ _ s u h

section other_levels
variable {s t : State} (m : PerLine Level)

theorem startCommand_sameButLevels :
    SameButLevels (startCommand s) (startCommand { s with levels := m }) :=
  ⟨rfl, rfl, rfl, rfl, rfl, rfl⟩

/-- The admission test does not look at the levels. -/
theorem onOperating_other_levels {pins : List Line} {body : State → State} (hbody : AnswersAlike body)
    (h : onOperating pins s body = .next t) :
    ∃ u, onOperating pins { s with levels := m } body = .next u ∧ SameAnswer t u := by
  obtain ⟨hoperating, rfl⟩ := onOperating_next.1 h
  exact ⟨_, onOperating_next.2 ⟨hoperating, rfl⟩, hbody _ _ (startCommand_sameButLevels m)⟩

theorem applyGroup_other_levels {pins : List Line} {v : Option Pattern}
    (h : applyGroup pins v s = .next t) :
    ∃ u, applyGroup pins v { s with levels := m } = .next u ∧ SameAnswer t u :=
  onOperating_other_levels m
    (conclude_answersAlike (applyBody_levelBlind _ _) (respond_answersAlike _ _)) h

theorem readGroup_other_levels {pins : List Line} {decoded : Pattern → Tag}
    (h : readGroup pins decoded s = .next t) :
    ∃ u, readGroup pins decoded { s with levels := m } = .next u ∧ SameAnswer t u := by
  refine onOperating_other_levels m (fun s u hsame => ?_) h
  have hblind := runPrims_levelBlind (pins.map .read) s u hsame
  rw [runPrims_read, runPrims_read] at hblind
  obtain ⟨hread, hstate⟩ := hblind
  cases hs : (readSeq pins s).2 with
  | none =>
    have hu : (readSeq pins u).2 = none := by simpa [hs] using hread
    simpa only [hu] using respond_sameAnswer hstate _ _ _
  | some v =>
    obtain ⟨w, hu⟩ : ∃ w, (readSeq pins u).2 = some w := by
      simpa [hs, Option.isSome_iff_exists] using hread
    simpa only [hu] using respond_sameAnswer hstate _ _ _

theorem execDisableAll_other_levels (h : execDisableAll s = .next t) :
    ∃ u, execDisableAll { s with levels := m } = .next u ∧ SameAnswer t u :=
  onOperating_other_levels m
    (conclude_answersAlike (writeAnyOrder_levelBlind _) (respond_putPhase_answersAlike _ _ _)) h

theorem execInit_other_levels {tg : GainOperand} {tf : FilterOperand} (h : execInit tg tf s = .next t) :
    ∃ u, execInit tg tf { s with levels := m } = .next u ∧ SameAnswer t u := by
  have hphase : s.phase = .uninit := (execInit_next h).1
  rw [execInit, if_pos hphase] at h
  cases h
  exact ⟨_, if_pos hphase, runInit_answersAlike tg tf _ _ (startCommand_sameButLevels m)⟩

end other_levels

theorem exec_other_levels {i : Instr} {s t : State} (m : PerLine Level) (h : exec i s = .next t) :
    ∃ u, exec i { s with levels := m } = .next u ∧ SameAnswer t u := by
  cases i with
  | applyGain o => exact applyGroup_other_levels m h
  | applyFilter o => exact applyGroup_other_levels m h
  | readGain => exact readGroup_other_levels m h
  | readFilter => exact readGroup_other_levels m h
  | disableAll => exact execDisableAll_other_levels m h
  | init tg tf => exact execInit_other_levels m h
  | idn => cases h; exact ⟨_, rfl, ⟨rfl, rfl, rfl, rfl⟩⟩

/-- Settles O39, by `exec_other_levels`. -/
theorem callsIndependentOfLevels : Obligations.CallsIndependentOfLevels := by
  unfold Obligations.CallsIndependentOfLevels
  intro i s t m h
  obtain ⟨u, hu, hsame⟩ := exec_other_levels m h
  exact ⟨u, hu, hsame.prims, hsame.phase, hsame.modes, hsame.status⟩

end Sys2Proof.Proofs.LevelBlindness
end

section
namespace Sys2Proof.Proofs.DriverFailures
open Sys2Proof Sys2Proof.Machine

/-- How a command ends: at its first failing call, without a call at a failed connection, or with every call
done (60_exceptions.md R102). -/
inductive Ending (i : Instr) (s t : State) (r : Response) : Prop where
  | atFailingCall (status : r.status = .driverFailure) (val : r.val = 0) (phase : t.phase = s.phase)
      (last : ∃ pre c, t.calls = pre ++ [c] ∧ c.result = .failed ∧ ∀ d ∈ pre, d.result ≠ .failed)
  | notConnected (val : r.val = 0) (phase : t.phase = s.phase) (calls : t.calls = [])
      (connected : s.params.connected = false) (init : ∃ tg tf, i = .init tg tf)
  | completed (status : r.status ≠ .driverFailure) (calls : ∀ c ∈ t.calls, c.result ≠ .failed)

theorem exec_ending {i : Instr} {s t : State} {r : Response} (h : exec i s = .next t)
    (hresponse : t.response = some r) : Ending i s t r := by
  obtain ⟨ps, u, ok, hran⟩ := exec_ran h
  obtain ⟨done, hmade⟩ := hran.attempts.calls
  have hcalls : t.calls = done := hran.calls.trans hmade.calls
  cases ok with
  | false =>
    obtain ⟨hphase, hfailure⟩ := hran.failed rfl
    obtain rfl : r = ⟨.driverFailure, 0, none⟩ := Option.some.inj (hresponse.symm.trans hfailure)
    exact .atFailingCall rfl rfl hphase (hcalls ▸ hmade.broken rfl)
  | true =>
    obtain ⟨r', hr', hend⟩ := hran.succeeded rfl
    obtain rfl : r = r' := Option.some.inj (hresponse.symm.trans hr')
    rcases hend with hstatus | ⟨hval, hnone, hconnected, hphase, hinit⟩
    · exact .completed hstatus (hcalls ▸ (hmade.complete rfl).2)
    · exact .notConnected hval hphase hnone hconnected hinit

/-- Settles O36, by the three ways a command ends. -/
theorem driverFailureEndsCommand : Obligations.DriverFailureEndsCommand := by
  unfold Obligations.DriverFailureEndsCommand
  intro i s t r h hresponse
  cases exec_ending h hresponse with
  | atFailingCall hstatus hval hphase hlast =>
    exact ⟨fun _ => ⟨hval, hphase, .inl hlast⟩, fun hother => absurd hstatus hother⟩
  | notConnected hval hphase hnone hconnected hinit =>
    exact ⟨fun _ => ⟨hval, hphase, .inr ⟨hnone, hconnected, hinit⟩⟩, fun _ => by simp [hnone]⟩
  | completed hstatus hcalls => exact ⟨fun hfailure => absurd hfailure hstatus, fun _ => hcalls⟩

/-- Settles O37: a command uses up one entry of the environment at each call, from the first entry on. -/
theorem callsFailAsTheEnvironmentChooses : Obligations.CallsFailAsTheEnvironmentChooses := by
  unfold Obligations.CallsFailAsTheEnvironmentChooses
  intro i s t h
  obtain ⟨ps, ok, hmade, -⟩ := CommandTraces.exec_made h
  exact hmade.fails

theorem exec_call_not_failed {i : Instr} {s t : State} (hnofailure : NoFailure s) (h : exec i s = .next t) :
    ∀ c ∈ t.calls, c.result ≠ .failed := by
  intro c hc hfailed
  obtain ⟨k, hk⟩ := List.mem_iff_getElem?.1 hc
  obtain ⟨hmay, e, he, hfails⟩ := (callsFailAsTheEnvironmentChooses i s t h k c hk).1 hfailed
  rcases hnofailure with hnever | hquiet
  · exact absurd hmay (by simp [hnever])
  · exact absurd hfails (by simp [hquiet e (List.mem_of_getElem? he)])

/-- Settles O38: neither of the two endings with DRIVER_FAILURE can occur. -/
theorem noDriverFailureWithoutCause : Obligations.NoDriverFailureWithoutCause := by
  unfold Obligations.NoDriverFailureWithoutCause
  intro i s t hnofailure hconnected h hstatus
  obtain ⟨r, hresponse, hfailure⟩ := Option.map_eq_some_iff.1 hstatus
  cases exec_ending h hresponse with
  | atFailingCall _ _ _ hlast =>
    obtain ⟨pre, c, hcalls, hfailed, -⟩ := hlast
    exact exec_call_not_failed hnofailure h c (by simp [hcalls]) hfailed
  | notConnected _ _ _ hrefused _ => exact absurd hconnected (by simp [hrefused])
  | completed hother _ => exact hother hfailure

end Sys2Proof.Proofs.DriverFailures
end

section
namespace Sys2Proof.Proofs.ApplyTransients
open Sys2Proof Sys2Proof.Machine Sys2Proof.Proofs.CalmCommands Sys2Proof.Proofs.RoundTrip

/-! ### The vectors below a vector, and the two tables (70_reset_and_hazards.md R126) -/

/-- The vectors that come of a vector by turning some of its 1s into 0s. -/
def subPatterns (v : Pattern) : List Pattern := (v.map fun b => [false, b]).sections

theorem nil_mem_subPatterns : ([] : Pattern) ∈ subPatterns [] := List.mem_singleton_self _

theorem cons_mem_subPatterns {a b : Bool} {w v : Pattern} (ha : a = false ∨ a = b)
    (hw : w ∈ subPatterns v) : a :: w ∈ subPatterns (b :: v) :=
  List.mem_sections.2 (.cons (by simpa using ha) (List.mem_sections.1 hw))

/-- The rows of the gain table are closed under clearing bits. -/
theorem row_of_mem_subPatterns_gainEnc {g : GainSetting} {w : Pattern} (h : w ∈ subPatterns (gainEnc g)) :
    ∃ x, gainEnc x = w := by
  have hdecodes : ∀ w ∈ subPatterns (gainEnc g), (gainDec w).isSome := by cases g <;> decide
  obtain ⟨x, hx⟩ := Option.isSome_iff_exists.1 (hdecodes w h)
  exact ⟨x, (SettingTables.gainDec_eq_some_iff w x).1 hx⟩

/-- The rows of the cutoff table are closed under clearing bits. -/
theorem row_of_mem_subPatterns_filterEnc {f : FilterSetting} {w : Pattern}
    (h : w ∈ subPatterns (filterEnc f)) : ∃ x, filterEnc x = w := by
  have hdecodes : ∀ w ∈ subPatterns (filterEnc f), (filterDec w).isSome := by cases f <;> decide
  obtain ⟨x, hx⟩ := Option.isSome_iff_exists.1 (hdecodes w h)
  exact ⟨x, (SettingTables.filterDec_eq_some_iff w x).1 hx⟩

theorem holds_cons {p : Line} {ps : List Line} {b : Bool} {v : Pattern} {m : PerLine Level} :
    Holds (p :: ps) (b :: v) m ↔ m.get p = .holds b ∧ Holds ps v m := by
  simp [Holds]

/-- Lines that hold a vector, some of them then put to 0, hold a vector below it. -/
theorem holds_subPattern {pins : List Line} {v : Pattern} {m n : PerLine Level} (h : Holds pins v m)
    (hlowered : ∀ p ∈ pins, n.get p = .holds false ∨ n.get p = m.get p) :
    ∃ w ∈ subPatterns v, Holds pins w n := by
  induction pins generalizing v with
  | nil =>
    obtain rfl : v = [] := List.map_eq_nil_iff.1 h.symm
    exact ⟨[], nil_mem_subPatterns, rfl⟩
  | cons p ps ih =>
    obtain ⟨b, v, rfl, -, -⟩ := List.map_eq_cons_iff.1 h.symm
    obtain ⟨hp, hps⟩ := holds_cons.1 h
    obtain ⟨w, hw, hn⟩ := ih hps fun q hq => hlowered q (List.mem_cons_of_mem _ hq)
    rcases hlowered p List.mem_cons_self with hzero | hkept
    · exact ⟨false :: w, cons_mem_subPatterns (.inl rfl) hw, holds_cons.2 ⟨hzero, hn⟩⟩
    · exact ⟨b :: w, cons_mem_subPatterns (.inr rfl) hw, holds_cons.2 ⟨hkept.trans hp, hn⟩⟩

/-! ### What the successful writes of a trace come to -/

theorem replay_of_failed {cs : List Call} (hfailed : ∀ c ∈ cs, c.result = .failed) (m : PerLine Level) :
    replay cs m = m := by
  induction cs with
  | nil => rfl
  | cons c cs ih =>
    obtain ⟨q, r⟩ := c
    obtain rfl : r = .failed := hfailed _ List.mem_cons_self
    have hrest := ih fun c hc => hfailed c (List.mem_cons_of_mem _ hc)
    cases q <;> exact hrest

section made
variable {ws : List (Line × Bool)} {s u : State} {ok : Bool} {done : List Call}
  (h : Made (writePrims ws) s u ok done)
include h

/-- The writes made are done, up to the failing one if there is one (60_exceptions.md R102). -/
theorem Made.done_then_failed : ∃ pre post, done = pre ++ post ∧ (∀ c ∈ pre, c.result = .done) ∧
    ∀ c ∈ post, c.result = .failed := by
  have hdone : ∀ c ∈ done, c.result ≠ .failed → c.result = .done := by
    intro c hc hok
    have hmem : c.prim ∈ writePrims ws := h.begins.subset (List.mem_map_of_mem hc)
    rcases h.results c hc with hfailed | hdone | ⟨p, hp⟩
    · exact absurd hfailed hok
    · exact hdone
    · simp [writePrims, hp] at hmem
  cases ok with
  | true =>
    exact ⟨done, [], by simp, fun c hc => hdone c hc ((h.complete rfl).2 c hc), nofun⟩
  | false =>
    obtain ⟨pre, c, rfl, hfailed, hpre⟩ := h.broken rfl
    exact ⟨pre, [c], rfl, fun d hd => hdone d (List.mem_append_left _ hd) (hpre d hd),
      by simpa using hfailed⟩

/-- What the successful writes among the first calls come to is a beginning of the writes tried. -/
theorem Made.replay_take (k : Nat) (m : PerLine Level) :
    ∃ vs, vs <+: ws ∧ replay (done.take k) m = setLevels vs m := by
  obtain ⟨pre, post, rfl, hpre, hpost⟩ := Made.done_then_failed h
  have hbegins : (pre.take k).map Call.prim <+: writePrims ws :=
    (((List.take_prefix k pre).trans (List.prefix_append pre post)).map Call.prim).trans h.begins
  obtain ⟨vs, hvs, hprims⟩ := List.prefix_map_iff.1 hbegins
  refine ⟨vs, hvs, ?_⟩
  rw [List.take_append, replay_append, replay_of_failed fun c hc => hpost c (List.mem_of_mem_take hc)]
  exact replay_of_writes m hprims fun c hc => hpre c (List.mem_of_mem_take hc)

end made

/-! ### The levels inside an apply -/

section phases
variable {pins : List Line} {v v₀ : Pattern} {c d : List (Line × Bool)} {m : PerLine Level}
  (h : ClearThenSet pins (some v) c d)
include h

/-- Inside the clear phase some lines are at 0 and the others as they were. -/
theorem ClearThenSet.holds_inside_clear (hstart : Holds pins v₀ m) {vs : List (Line × Bool)}
    (hvs : vs <+: c) : ∃ w ∈ subPatterns v₀, Holds pins w (setLevels vs m) := by
  have hbits : ∀ w ∈ vs, w.2 = false := fun w hw =>
    bit_of_clearWrites w (h.1.mem_iff.1 (hvs.subset hw))
  refine holds_subPattern hstart fun p _ => ?_
  rw [setLevels_get_of_const hbits]
  split
  · exact .inl rfl
  · exact .inr rfl

/-- Inside the set phase some lines are at 1, as in the vector asked for, and the others still at 0. -/
theorem ClearThenSet.holds_inside_set (hnodup : pins.Nodup) (hlength : v.length = pins.length)
    {vs : List (Line × Bool)} (hvs : vs <+: d) :
    ∃ w ∈ subPatterns v, Holds pins w (setLevels (c ++ vs) m) := by
  have hclear : ∀ w ∈ c, w.2 = false := fun w hw => bit_of_clearWrites w (h.1.mem_iff.1 hw)
  have hset : ∀ w ∈ d, w.2 = true := fun w hw => bit_of_setWrites w (h.2.mem_iff.1 hw)
  refine holds_subPattern (ClearThenSet.holds h hnodup hlength m) fun p hp => ?_
  have hcleared : p ∈ c.map Prod.fst := (h.1.map Prod.fst).mem_iff.2 ((map_fst_clearWrites pins).symm ▸ hp)
  rw [LineSpace.setLevels_append, LineSpace.setLevels_append, setLevels_get_of_const hset,
    setLevels_get_of_const fun w hw => hset w (hvs.subset hw), setLevels_get_of_const hclear,
    if_pos hcleared]
  by_cases hwritten : p ∈ vs.map Prod.fst
  · exact .inr (by rw [if_pos hwritten, if_pos ((hvs.map Prod.fst).subset hwritten)])
  · exact .inl (if_neg hwritten)

/-- A beginning of the two phases ends in the clear phase or in the set phase. -/
theorem ClearThenSet.holds_of_prefix (hnodup : pins.Nodup) (hlength : v.length = pins.length)
    (hstart : Holds pins v₀ m) {vs : List (Line × Bool)} (hvs : vs <+: c ++ d) :
    ∃ w, (w ∈ subPatterns v₀ ∨ w ∈ subPatterns v) ∧ Holds pins w (setLevels vs m) := by
  obtain ⟨rest, hrest⟩ := hvs
  rcases List.append_eq_append_iff.1 hrest with ⟨es, rfl, -⟩ | ⟨es, rfl, rfl⟩
  · obtain ⟨w, hw, hholds⟩ := ClearThenSet.holds_inside_clear h hstart (List.prefix_append vs es)
    exact ⟨w, .inl hw, hholds⟩
  · obtain ⟨w, hw, hholds⟩ :=
      ClearThenSet.holds_inside_set (m := m) h hnodup hlength (List.prefix_append es rest)
    exact ⟨w, .inr hw, hholds⟩

end phases

/-- Inside an apply its group holds a vector below the one it held at the start or below the one asked
for, whatever the order of the writes and wherever the run ends. -/
theorem applyGroup_transients {pins : List Line} {v v₀ : Pattern} {s t : State}
    (h : applyGroup pins (some v) s = .next t) (hnodup : pins.Nodup) (hlength : v.length = pins.length)
    (hstart : Holds pins v₀ s.levels) (k : Nat) :
    ∃ w, (w ∈ subPatterns v₀ ∨ w ∈ subPatterns v) ∧ Holds pins w (replay (t.calls.take k) s.levels) := by
  obtain ⟨c, d, u, ok, -, -, hphases, hattempts, rfl⟩ := applyGroup_next h
  obtain ⟨done, hmade⟩ := hattempts.calls
  obtain ⟨vs, hvs, hreplay⟩ := Made.replay_take hmade k s.levels
  have hcalls : u.calls = done := hmade.calls
  obtain ⟨w, hw, hholds⟩ := ClearThenSet.holds_of_prefix hphases hnodup hlength hstart hvs
  rw [← hreplay, ← hcalls] at hholds
  cases ok <;> exact ⟨w, hw, hholds⟩

/-- Settles O19: a vector below a row of either table is a row of it. -/
theorem applyTransientsValid : Obligations.ApplyTransientsValid := by
  unfold Obligations.ApplyTransientsValid
  constructor
  · rintro s t g ⟨g₀, hstart⟩ h k
    obtain ⟨w, hw, hholds⟩ := applyGroup_transients h nodup_gainPins
      (length_of_gainPattern (o := .setting g) _ rfl) hstart k
    obtain ⟨x, rfl⟩ := hw.elim row_of_mem_subPatterns_gainEnc row_of_mem_subPatterns_gainEnc
    exact ⟨x, hholds⟩
  · rintro s t f ⟨f₀, hstart⟩ h k
    obtain ⟨w, hw, hholds⟩ := applyGroup_transients h nodup_filterPins
      (length_of_filterPattern (o := .setting f) _ rfl) hstart k
    obtain ⟨x, rfl⟩ := hw.elim row_of_mem_subPatterns_filterEnc row_of_mem_subPatterns_filterEnc
    exact ⟨x, hholds⟩

end Sys2Proof.Proofs.ApplyTransients
end
